-- ==== Sys2Proof/Word.lean ====
section
/-! DEFINITION. The two word sizes of the core and the index types of its fixed-size files. -/

namespace Sys2Proof

/-- A memory cell, a general register or a timer: 8 bits (R31, R37, R60). -/
abbrev Byte := BitVec 8

/-- The instruction word, the program counter, the index register and a stack slot: 16 bits
(R33, R34, R36, R90). -/
abbrev Word := BitVec 16

/-- The number of a general register, V0 to VF (R31). -/
abbrev Reg := Fin 16

/-- The flag register VF (R32, FLAG_REG of R8). -/
abbrev VF : Reg := 15

/-- The number of a key (R39). -/
abbrev KeyIdx := Fin 16

end Sys2Proof
end

