-- ==== Sys2Proof/Syntax.lean ====
section
/-! DEFINITION. The 34 instructions of 30_encoding.md R95, one constructor for each row of
spec/opcode_table.json. Ignored bits (R97) are no operands and stand in no constructor. -/

namespace Sys2Proof

/-- An instruction with its operands (R91, R93): `x` and `y` are register numbers, `kk` an immediate
byte, `nnn` an address, `n` a row count. `nnn` and `n` are plain numbers, and WellFormed.lean gives
their bounds (log 29). -/
inductive Instr where
  /-- `00E0` clear the screen (R210) -/
  | cls
  /-- `00EE` return from subroutine (R132) -/
  | ret
  /-- `1nnn` jump (R130) -/
  | jp (nnn : Nat)
  /-- `2nnn` call subroutine (R131) -/
  | call (nnn : Nat)
  /-- `3xkk` skip if Vx = kk (R133) -/
  | seImm (x : Reg) (kk : Byte)
  /-- `4xkk` skip if Vx differs from kk (R134) -/
  | sneImm (x : Reg) (kk : Byte)
  /-- `5xy_` skip if Vx = Vy (R135) -/
  | seReg (x y : Reg)
  /-- `6xkk` Vx := kk (R160) -/
  | ldImm (x : Reg) (kk : Byte)
  /-- `7xkk` Vx := Vx + kk, no flag (R161) -/
  | addImm (x : Reg) (kk : Byte)
  /-- `8xy0` Vx := Vy (R162) -/
  | ldReg (x y : Reg)
  /-- `8xy1` Vx := Vx OR Vy (R163) -/
  | orReg (x y : Reg)
  /-- `8xy2` Vx := Vx AND Vy (R164) -/
  | andReg (x y : Reg)
  /-- `8xy3` Vx := Vx XOR Vy (R165) -/
  | xorReg (x y : Reg)
  /-- `8xy4` Vx := Vx + Vy, VF = carry (R166) -/
  | addReg (x y : Reg)
  /-- `8xy5` Vx := Vx - Vy, VF = not borrow (R167) -/
  | subReg (x y : Reg)
  /-- `8x_6` Vx := Vx >> 1, VF = old bit 0 (R168) -/
  | shr (x : Reg)
  /-- `8xy7` Vx := Vy - Vx, VF = not borrow (R169) -/
  | subnReg (x y : Reg)
  /-- `8x_E` Vx := Vx << 1, VF = old bit 7 (R170) -/
  | shl (x : Reg)
  /-- `9xy_` skip if Vx differs from Vy (R136) -/
  | sneReg (x y : Reg)
  /-- `Annn` I := nnn (R190) -/
  | ldI (nnn : Nat)
  /-- `Bnnn` pc := nnn + V0 (R137) -/
  | jpV0 (nnn : Nat)
  /-- `Cxkk` Vx := random AND kk (R251) -/
  | rnd (x : Reg) (kk : Byte)
  /-- `Dxyn` draw an n-row sprite at (Vx, Vy) (R211) -/
  | drw (x y : Reg) (n : Nat)
  /-- `Ex9E` skip if key Vx is pressed (R260) -/
  | skp (x : Reg)
  /-- `ExA1` skip if key Vx is not pressed (R261) -/
  | sknp (x : Reg)
  /-- `Fx07` Vx := DT (R230) -/
  | ldVxDt (x : Reg)
  /-- `Fx0A` wait for a key, Vx := LastKey (R262) -/
  | ldVxK (x : Reg)
  /-- `Fx15` DT := Vx (R231) -/
  | ldDt (x : Reg)
  /-- `Fx18` ST := Vx (R232) -/
  | ldSt (x : Reg)
  /-- `Fx1E` I := I + Vx (R191) -/
  | addI (x : Reg)
  /-- `Fx29` I := 5 Vx (R192) -/
  | ldF (x : Reg)
  /-- `Fx33` store the decimal digits of Vx at I (R193) -/
  | ldB (x : Reg)
  /-- `Fx55` store V0..Vx at I (R194) -/
  | ldStore (x : Reg)
  /-- `Fx65` load V0..Vx from I (R195) -/
  | ldLoad (x : Reg)
deriving DecidableEq, Repr

end Sys2Proof
end

