-- ==== Sys2Proof/WellFormed.lean ====
section
/-! DEFINITION. Which instructions have an encoding: an address fits its 12-bit field and a row count
its 4-bit field (R91, R93). Every other operand is bounded by its type. -/

namespace Sys2Proof

/-- An address operand fits the nnn field w[11:0] (R91). -/
def addressFits (nnn : Nat) : Bool := decide (nnn < 0x1000)

/-- A row count fits the n field w[3:0] (R91, R93). -/
def rowsFit (n : Nat) : Bool := decide (n < 16)

/-- The instruction has an encoding. -/
def Instr.wellFormed : Instr → Bool
  | .cls => true
  | .ret => true
  | .jp nnn => addressFits nnn
  | .call nnn => addressFits nnn
  | .seImm _ _ => true
  | .sneImm _ _ => true
  | .seReg _ _ => true
  | .ldImm _ _ => true
  | .addImm _ _ => true
  | .ldReg _ _ => true
  | .orReg _ _ => true
  | .andReg _ _ => true
  | .xorReg _ _ => true
  | .addReg _ _ => true
  | .subReg _ _ => true
  | .shr _ => true
  | .subnReg _ _ => true
  | .shl _ => true
  | .sneReg _ _ => true
  | .ldI nnn => addressFits nnn
  | .jpV0 nnn => addressFits nnn
  | .rnd _ _ => true
  | .drw _ _ n => rowsFit n
  | .skp _ => true
  | .sknp _ => true
  | .ldVxDt _ => true
  | .ldVxK _ => true
  | .ldDt _ => true
  | .ldSt _ => true
  | .addI _ => true
  | .ldF _ => true
  | .ldB _ => true
  | .ldStore _ => true
  | .ldLoad _ => true

end Sys2Proof
end

