-- ==== Sys2Proof/Decode.lean ====
section
/-! DEFINITION. The fields of an instruction word (R91), the decoder (R94-R98), total on all words and
on all byte strings, and after it the encoder, written from the formats of R92 and the match and mask
columns of spec/opcode_table.json. Which value selects which operation is PRESUMED (log 1): the spec
takes the conventional assignment from general knowledge (D1). -/

namespace Sys2Proof

/-! ## Fields (R91) -/

/-- op = w[15:12], the opcode family. -/
def fieldOp (w : Word) : BitVec 4 := w.extractLsb' 12 4

/-- x = w[11:8], the first register number. -/
def fieldX (w : Word) : Reg := (w.extractLsb' 8 4).toFin

/-- y = w[7:4], the second register number. -/
def fieldY (w : Word) : Reg := (w.extractLsb' 4 4).toFin

/-- n = w[3:0], a row count or the sub-operation of family 8. -/
def fieldN (w : Word) : BitVec 4 := w.extractLsb' 0 4

/-- kk = w[7:0], an immediate byte or the sub-operation of families 0, E and F. -/
def fieldKk (w : Word) : Byte := w.extractLsb' 0 8

/-- nnn = w[11:0], an address. -/
def fieldNnn (w : Word) : BitVec 12 := w.extractLsb' 0 12

/-- The big-endian word of two consecutive bytes: the first byte is w[15:8] (R65). -/
def wordOfBytes (hi lo : Byte) : Word := hi ++ lo

/-- The first byte of a word in memory, w[15:8] (R65). -/
def highByte (w : Word) : Byte := w.extractLsb' 8 8

/-- The second byte of a word in memory, w[7:0] (R65). -/
def lowByte (w : Word) : Byte := w.extractLsb' 0 8

/-! ## Decode (R94-R98) -/

/-- What a word is: one of the 34 instructions with its fields, or unsupported (R98). -/
inductive Decoded where
  | instr (i : Instr)
  | unsupported (w : Word)
deriving DecidableEq, Repr

/-- Family 0 selects on the low byte and ignores w[11:8] (R94, R97). -/
def decodeFamily0 (w : Word) : Decoded :=
  match fieldKk w with
  | 0xE0#8 => .instr .cls
  | 0xEE#8 => .instr .ret
  | _ => .unsupported w

/-- Family 8 selects on the low nibble (R94). SHR and SHL ignore y (R97). -/
def decodeFamily8 (w : Word) : Decoded :=
  match fieldN w with
  | 0x0#4 => .instr (.ldReg (fieldX w) (fieldY w))
  | 0x1#4 => .instr (.orReg (fieldX w) (fieldY w))
  | 0x2#4 => .instr (.andReg (fieldX w) (fieldY w))
  | 0x3#4 => .instr (.xorReg (fieldX w) (fieldY w))
  | 0x4#4 => .instr (.addReg (fieldX w) (fieldY w))
  | 0x5#4 => .instr (.subReg (fieldX w) (fieldY w))
  | 0x6#4 => .instr (.shr (fieldX w))
  | 0x7#4 => .instr (.subnReg (fieldX w) (fieldY w))
  | 0xE#4 => .instr (.shl (fieldX w))
  | _ => .unsupported w

/-- Family E selects on the low byte (R94). -/
def decodeFamilyE (w : Word) : Decoded :=
  match fieldKk w with
  | 0x9E#8 => .instr (.skp (fieldX w))
  | 0xA1#8 => .instr (.sknp (fieldX w))
  | _ => .unsupported w

/-- Family F selects on the low byte (R94). -/
def decodeFamilyF (w : Word) : Decoded :=
  match fieldKk w with
  | 0x07#8 => .instr (.ldVxDt (fieldX w))
  | 0x0A#8 => .instr (.ldVxK (fieldX w))
  | 0x15#8 => .instr (.ldDt (fieldX w))
  | 0x18#8 => .instr (.ldSt (fieldX w))
  | 0x1E#8 => .instr (.addI (fieldX w))
  | 0x29#8 => .instr (.ldF (fieldX w))
  | 0x33#8 => .instr (.ldB (fieldX w))
  | 0x55#8 => .instr (.ldStore (fieldX w))
  | 0x65#8 => .instr (.ldLoad (fieldX w))
  | _ => .unsupported w

/-- The decoder (R94): it reads nothing but the word (R98). Families 5 and 9 ignore w[3:0]. -/
def decode (w : Word) : Decoded :=
  match fieldOp w with
  | 0x0#4 => decodeFamily0 w
  | 0x1#4 => .instr (.jp (fieldNnn w).toNat)
  | 0x2#4 => .instr (.call (fieldNnn w).toNat)
  | 0x3#4 => .instr (.seImm (fieldX w) (fieldKk w))
  | 0x4#4 => .instr (.sneImm (fieldX w) (fieldKk w))
  | 0x5#4 => .instr (.seReg (fieldX w) (fieldY w))
  | 0x6#4 => .instr (.ldImm (fieldX w) (fieldKk w))
  | 0x7#4 => .instr (.addImm (fieldX w) (fieldKk w))
  | 0x8#4 => decodeFamily8 w
  | 0x9#4 => .instr (.sneReg (fieldX w) (fieldY w))
  | 0xA#4 => .instr (.ldI (fieldNnn w).toNat)
  | 0xB#4 => .instr (.jpV0 (fieldNnn w).toNat)
  | 0xC#4 => .instr (.rnd (fieldX w) (fieldKk w))
  | 0xD#4 => .instr (.drw (fieldX w) (fieldY w) (fieldN w).toNat)
  | 0xE#4 => decodeFamilyE w
  | _ => decodeFamilyF w

/-- Why a byte string gives no instruction: fewer than two bytes, or an unsupported word (R96). -/
inductive DecodeError where
  | truncated
  | unsupportedOpcode (w : Word)
deriving DecidableEq, Repr

/-- Decode the instruction at the head of a byte string, big-endian, and give the bytes after it
(R65, R90). -/
def decodeBytes : List Byte → Except DecodeError (Instr × List Byte)
  | hi :: lo :: rest =>
    match decode (wordOfBytes hi lo) with
    | .instr i => .ok (i, rest)
    | .unsupported w => .error (.unsupportedOpcode w)
  | _ => .error .truncated

/-! ## Encode (R92, spec/opcode_table.json) -/

/-- The four bits of a register field. -/
def regBits (r : Reg) : BitVec 4 := BitVec.ofFin r

/-- Format A: op, nnn (R92). -/
def formatA (op : BitVec 4) (nnn : Nat) : Word := op ++ BitVec.ofNat 12 nnn

/-- Format XK: op, x, kk; also format XS, whose low byte is the sub-operation (R92). -/
def formatXK (op : BitVec 4) (x : Reg) (kk : Byte) : Word := op ++ regBits x ++ kk

/-- Formats XY, XYS and XYN: op, x, y and the low nibble (R92). -/
def formatXYN (op : BitVec 4) (x y : Reg) (n : BitVec 4) : Word := op ++ regBits x ++ regBits y ++ n

/-- The word of an instruction, with every ignored bit 0 (R92, R97). -/
def encode : Instr → Word
  | .cls => formatXK 0x0 0 0xE0
  | .ret => formatXK 0x0 0 0xEE
  | .jp nnn => formatA 0x1 nnn
  | .call nnn => formatA 0x2 nnn
  | .seImm x kk => formatXK 0x3 x kk
  | .sneImm x kk => formatXK 0x4 x kk
  | .seReg x y => formatXYN 0x5 x y 0x0
  | .ldImm x kk => formatXK 0x6 x kk
  | .addImm x kk => formatXK 0x7 x kk
  | .ldReg x y => formatXYN 0x8 x y 0x0
  | .orReg x y => formatXYN 0x8 x y 0x1
  | .andReg x y => formatXYN 0x8 x y 0x2
  | .xorReg x y => formatXYN 0x8 x y 0x3
  | .addReg x y => formatXYN 0x8 x y 0x4
  | .subReg x y => formatXYN 0x8 x y 0x5
  | .shr x => formatXYN 0x8 x 0 0x6
  | .subnReg x y => formatXYN 0x8 x y 0x7
  | .shl x => formatXYN 0x8 x 0 0xE
  | .sneReg x y => formatXYN 0x9 x y 0x0
  | .ldI nnn => formatA 0xA nnn
  | .jpV0 nnn => formatA 0xB nnn
  | .rnd x kk => formatXK 0xC x kk
  | .drw x y n => formatXYN 0xD x y (BitVec.ofNat 4 n)
  | .skp x => formatXK 0xE x 0x9E
  | .sknp x => formatXK 0xE x 0xA1
  | .ldVxDt x => formatXK 0xF x 0x07
  | .ldVxK x => formatXK 0xF x 0x0A
  | .ldDt x => formatXK 0xF x 0x15
  | .ldSt x => formatXK 0xF x 0x18
  | .addI x => formatXK 0xF x 0x1E
  | .ldF x => formatXK 0xF x 0x29
  | .ldB x => formatXK 0xF x 0x33
  | .ldStore x => formatXK 0xF x 0x55
  | .ldLoad x => formatXK 0xF x 0x65

/-- The two bytes of an instruction in memory order (R65). -/
def encodeBytes (i : Instr) : List Byte := [highByte (encode i), lowByte (encode i)]

/-- The match column of the instruction's row in spec/opcode_table.json. -/
def Instr.matchBits : Instr → Word
  | .cls => 0x00E0
  | .ret => 0x00EE
  | .jp _ => 0x1000
  | .call _ => 0x2000
  | .seImm _ _ => 0x3000
  | .sneImm _ _ => 0x4000
  | .seReg _ _ => 0x5000
  | .ldImm _ _ => 0x6000
  | .addImm _ _ => 0x7000
  | .ldReg _ _ => 0x8000
  | .orReg _ _ => 0x8001
  | .andReg _ _ => 0x8002
  | .xorReg _ _ => 0x8003
  | .addReg _ _ => 0x8004
  | .subReg _ _ => 0x8005
  | .shr _ => 0x8006
  | .subnReg _ _ => 0x8007
  | .shl _ => 0x800E
  | .sneReg _ _ => 0x9000
  | .ldI _ => 0xA000
  | .jpV0 _ => 0xB000
  | .rnd _ _ => 0xC000
  | .drw _ _ _ => 0xD000
  | .skp _ => 0xE09E
  | .sknp _ => 0xE0A1
  | .ldVxDt _ => 0xF007
  | .ldVxK _ => 0xF00A
  | .ldDt _ => 0xF015
  | .ldSt _ => 0xF018
  | .addI _ => 0xF01E
  | .ldF _ => 0xF029
  | .ldB _ => 0xF033
  | .ldStore _ => 0xF055
  | .ldLoad _ => 0xF065

/-- The mask column: 0xF0FF for families 0, E and F, 0xF00F for family 8, 0xF000 for the rest
(R94). -/
def Instr.maskBits : Instr → Word
  | .cls | .ret => 0xF0FF
  | .jp _ | .call _ | .seImm _ _ | .sneImm _ _ | .seReg _ _ | .ldImm _ _ | .addImm _ _ => 0xF000
  | .ldReg _ _ | .orReg _ _ | .andReg _ _ | .xorReg _ _ | .addReg _ _ | .subReg _ _ | .shr _
  | .subnReg _ _ | .shl _ => 0xF00F
  | .sneReg _ _ | .ldI _ | .jpV0 _ | .rnd _ _ | .drw _ _ _ => 0xF000
  | .skp _ | .sknp _ => 0xF0FF
  | .ldVxDt _ | .ldVxK _ | .ldDt _ | .ldSt _ | .addI _ | .ldF _ | .ldB _ | .ldStore _ | .ldLoad _ =>
    0xF0FF

/-- The bits of a word its instruction does not ignore: all but w[11:8] in family 0, w[3:0] in
families 5 and 9, and w[7:4] in SHR and SHL (R97). -/
def Instr.careBits : Instr → Word
  | .cls => 0xF0FF
  | .ret => 0xF0FF
  | .seReg _ _ => 0xFFF0
  | .sneReg _ _ => 0xFFF0
  | .shr _ => 0xFF0F
  | .shl _ => 0xFF0F
  | .jp _ | .call _ | .seImm _ _ | .sneImm _ _ | .ldImm _ _ | .addImm _ _ | .ldReg _ _
  | .orReg _ _ | .andReg _ _ | .xorReg _ _ | .addReg _ _ | .subReg _ _ | .subnReg _ _
  | .ldI _ | .jpV0 _ | .rnd _ _ | .drw _ _ _ | .skp _ | .sknp _ | .ldVxDt _ | .ldVxK _
  | .ldDt _ | .ldSt _ | .addI _ | .ldF _ | .ldB _ | .ldStore _ | .ldLoad _ => 0xFFFF

/-! ## The opcode table's words -/

/-- A word as spec/opcode_table.json numbers its bits, of which the table gives `nbits`; the bits above
are 0. -/
def tableWord (nbits w : Nat) : Word := BitVec.ofNat 16 (w % 2 ^ nbits)

/-- The same word as the hardware stores it: two bytes, big-endian (R65). -/
def tableBytes (nbits w : Nat) : List Byte :=
  [highByte (tableWord nbits w), lowByte (tableWord nbits w)]

/-- What the decoder reads from a word of the opcode table. -/
def decodeTableWord (nbits w : Nat) : Option Instr :=
  match decodeBytes (tableBytes nbits w) with
  | .ok (i, _) => some i
  | .error _ => none

end Sys2Proof
end

