-- ==== Sys2Proof/Config.lean ====
section
/-! DEFINITION. What is fixed for the machine: the parameters of 00_scope.md R8, and the points the
spec leaves open, each as a constant with no body. -/

namespace Sys2Proof

/-- MEM_SIZE: bytes of memory (R8). -/
abbrev Config.memSize : Nat := 4096

/-- FONT_BASE: the address of glyph 0 (R8). -/
abbrev Config.fontBase : Nat := 0x000

/-- GLYPH_BYTES: bytes per font glyph (R8). -/
abbrev Config.glyphBytes : Nat := 5

/-- The first address past the font: FONT_END + 1 (R8). A program may not store below it (R63). -/
abbrev Config.fontLimit : Nat := 0x050

/-- PROG_BASE: the first byte of the program region and the value of pc after reset (R8; the latter
is the spec's decision D3). -/
abbrev Config.progBase : Nat := 0x200

/-- PROG_MAX: the largest program in bytes (R8). -/
abbrev Config.progMax : Nat := 3584

/-- FB_WIDTH: framebuffer columns (R8). -/
abbrev Config.fbWidth : Nat := 64

/-- FB_HEIGHT: framebuffer rows (R8). -/
abbrev Config.fbHeight : Nat := 32

/-- STACK_DEPTH: return-address slots (R8). -/
abbrev Config.stackDepth : Nat := 16

/-- How SHR and SHL with x = 0xF read the register they shift (SHIFT_VF_ALIAS of R9, D10). -/
inductive ShiftVfAlias where
  /-- the value latched before the flag write -/
  | latched
  /-- VF read again after the flag write -/
  | reread
deriving DecidableEq, Repr, Inhabited

/-- SHIFT_VF_ALIAS (R9): OPEN in the spec, so a constant with no body (log 10; safe). -/
opaque Config.shiftVfAlias : ShiftVfAlias

/-- What seeded the generator (R252): a seed the host supplied, or the k-th draw from the entropy
source. -/
inductive Seed where
  | supplied (seed : Nat)
  | entropy (k : Nat)
deriving DecidableEq, Repr, Inhabited

/-- PRNG (R9, R250): the n-th byte a generator seeded so gives. OPEN in the spec, so a function with
no body: a claim holds for every sequence of draws (log 14; safe). -/
opaque Config.draw8 (seed : Seed) (n : Nat) : Byte

end Sys2Proof
end

