-- ==== Sys2Proof/Machine/Font.lean ====
section
/-! DEFINITION. The parameter FONT (10_state.md R45): the type of its values, and the spec's default. -/

namespace Sys2Proof

/-- A font table: 16 glyphs of GLYPH_BYTES bytes, glyph 0 first (R45). -/
abbrev FontTable := Vector Byte 80

/-- The rows of the conventional table, one glyph after the other (R45). -/
def Config.fontRows : List Byte :=
  [0xF0, 0x90, 0x90, 0x90, 0xF0] ++ [0x20, 0x60, 0x20, 0x20, 0x70] ++
  [0xF0, 0x10, 0xF0, 0x80, 0xF0] ++ [0xF0, 0x10, 0xF0, 0x10, 0xF0] ++
  [0x90, 0x90, 0xF0, 0x10, 0x10] ++ [0xF0, 0x80, 0xF0, 0x10, 0xF0] ++
  [0xF0, 0x80, 0xF0, 0x90, 0xF0] ++ [0xF0, 0x10, 0x20, 0x40, 0x40] ++
  [0xF0, 0x90, 0xF0, 0x90, 0xF0] ++ [0xF0, 0x90, 0xF0, 0x10, 0xF0] ++
  [0xF0, 0x90, 0xF0, 0x90, 0x90] ++ [0xE0, 0x90, 0xE0, 0x90, 0xE0] ++
  [0xF0, 0x80, 0x80, 0x80, 0xF0] ++ [0xE0, 0x90, 0x90, 0x90, 0xE0] ++
  [0xF0, 0x80, 0xF0, 0x80, 0xF0] ++ [0xF0, 0x80, 0xF0, 0x80, 0x80]

/-- The default of the parameter FONT (R45). PRESUMED (log 4): the spec takes the conventional table, from
general knowledge (D4); unsafe for a claim about a run from `State.reset` that depends on glyph pixels. -/
def Config.font : FontTable := ⟨Config.fontRows.toArray, rfl⟩

end Sys2Proof
end

