-- ==== Sys2Proof/Machine/State.lean ====
section
/-! DEFINITION. The state of the core (10_state.md), its faults and refusals, its diagnostics, and the
state after reset. -/

namespace Sys2Proof.Machine

/-- Listed cells, as (address, byte) pairs with strictly rising addresses. -/
abbrev Cells := List Host.Cell

/-- Memory M (R60): the cells that differ from their contents at reset, beside the parameter FONT, which
fixes those contents (R45, R46). What an unlisted address reads as is `Memory.unlisted`. -/
structure Memory where
  /-- the parameter FONT of this instance: no operation changes it (R45, D4, log 4) -/
  font : FontTable
  /-- the cells that differ from their contents at reset (log 26) -/
  cells : Cells
deriving DecidableEq, Repr

/-- The diagnostics of 60_exceptions.md R301: results of an `advanceCycle` that completes. -/
inductive Diag where
  /-- the step had no diagnostic -/
  | none
  /-- the fetched word `w` at `pc` matches no row of R95 (R102) -/
  | unsupportedOpcode (w : Word) (pc : Word)
  /-- CALL with 16 occupied slots (R131) -/
  | stackOverflow
  /-- RET with no occupied slot (R132) -/
  | stackUnderflow
deriving DecidableEq, Repr

/-- The spec's undefined-behaviour faults (R303): the step has no next state and none of its writes is
applied. All are safe (logs 5, 6, 7): the model stops where the source gives no meaning. -/
inductive Fault where
  /-- An address of 4096 or more: raised by the fetch (R101), DRW (R211), LD B (R193), LD [I] (R194) and
  LD Vx,[I] (R195), with the first such address. Safe. -/
  | undefinedAccess (address : Nat)
  /-- A store below 0x050: raised by LD B (R193) and LD [I] (R194), with the first such address. Safe. -/
  | fontOverwrite (address : Nat)
  /-- A key test with V[x] of 16 or more: raised by SKP (R260) and SKNP (R261), with V[x]. Safe. -/
  | keyIndexOutOfRange (k : Byte)
deriving DecidableEq, Repr

/-- Why there is no meaning for an instruction. -/
inductive Refusal where
  /-- An arm of `exec` not modelled yet, by its mnemonic. No arm answers it: every instruction has its
  meaning. Safe. -/
  | notModelled (mnemonic : String)
deriving DecidableEq, Repr

/-- The random generator Rng (R40): what seeded it and how many bytes it has given since, which
together determine the next byte `Config.draw8 seed drawn` (log 14). `entropyUsed` counts the seeds
drawn from the entropy source, so that each unseeded reset has its own (R252). -/
structure Rng where
  seed : Seed
  drawn : Nat
  entropyUsed : Nat
deriving DecidableEq, Repr

/-- The framebuffer FB (R38): 32 rows of 64 cells; row `r`, column `c` is FB[c, r]. -/
abbrev Framebuffer := Vector (Vector Bool 64) 32

/-- The architectural state of R30 with the two bookkeeping components of R44. -/
structure State where
  /-- memory M (R60) -/
  mem : Memory
  /-- the general registers V0-VF (R31) -/
  v : Vector Byte 16
  /-- the index register I (R33) -/
  i : Word
  /-- the program counter (R34) -/
  pc : Word
  /-- the return-address slots (R36) -/
  stack : Vector Word 16
  /-- the stack pointer SP, 0 to 16: the number of occupied slots (R36) -/
  sp : Fin 17
  /-- the delay timer (R37) -/
  dt : Byte
  /-- the sound timer (R37) -/
  st : Byte
  /-- the framebuffer (R38) -/
  fb : Framebuffer
  /-- the pressed flags Key[0]-Key[15] (R39) -/
  key : Vector Bool 16
  /-- the most recently pressed key (R39) -/
  lastKey : KeyIdx
  /-- the random generator (R40) -/
  rng : Rng
  /-- DiagLog: the diagnostic of every completed `advanceCycle`, oldest first (R44) -/
  diagLog : List Diag
  /-- Fault: set by an `advanceCycle` that faulted, cleared only by reset (R44, R303) -/
  fault : Option Fault
deriving DecidableEq, Repr

/-- The state after reset of an instance whose parameter FONT is `font` (R45, R46, R340). Memory lists
nothing: it holds the font and zeros. pc = 0x200 is the spec's decision D3 (log 3). The three fields of
`rng` are the model's names for "freshly seeded" (DESIGN CHOICE, log 14). -/
def State.resetWith (font : FontTable) : State where
  mem := { font := font, cells := [] }
  v := Vector.replicate 16 0
  i := 0
  pc := 0x200
  stack := Vector.replicate 16 0
  sp := 0
  dt := 0
  st := 0
  fb := Vector.replicate 32 (Vector.replicate 64 false)
  key := Vector.replicate 16 false
  lastKey := 0
  rng := { seed := .entropy 0, drawn := 0, entropyUsed := 1 }
  diagLog := []
  fault := none

/-- The state after reset (R46, R340), with the spec's default for FONT (log 4). -/
def State.reset : State := State.resetWith Config.font

end Sys2Proof.Machine
end

