-- ==== Sys2Proof/Machine/Memory.lean ====
section
/-! DEFINITION. Memory (20_memory.md) over a list of cells in one canonical form: reading and writing one
byte, writing a run of bytes, and the range checks of R62 and R63. -/

namespace Sys2Proof.Machine

/-! ## Cells -/

/-- The byte listed for an address, if there is one. -/
def Cells.find : Cells → Nat → Option Byte
  | [], _ => none
  | (b, u) :: cs, a => if b = a then some u else Cells.find cs a

/-- Put a cell in its place by address. -/
def Cells.insert (a : Nat) (v : Byte) : Cells → Cells
  | [] => [(a, v)]
  | (b, u) :: cs => if a < b then (a, v) :: (b, u) :: cs else (b, u) :: Cells.insert a v cs

/-- The cells without any at `a`. -/
def Cells.forget (cs : Cells) (a : Nat) : Cells := cs.filter fun c => decide (c.1 ≠ a)

/-! ## Reading and writing -/

/-- What an address with no listed cell reads as: its contents at reset, FONT at 0x000-0x04F and 0
elsewhere (R46). -/
def Memory.unlisted (m : Memory) (a : Nat) : Byte := m.font.toList.getD (a - Config.fontBase) 0

/-- M[a]. -/
def Memory.read (m : Memory) (a : Nat) : Byte := (m.cells.find a).getD (m.unlisted a)

/-- M[a] <- v. Writing what an unlisted address reads as leaves no cell there, so equal memories are
equal data. FONT is fixed. -/
def Memory.write (m : Memory) (a : Nat) (v : Byte) : Memory :=
  { m with
    cells := if v = m.unlisted a then m.cells.forget a else Cells.insert a v (m.cells.forget a) }

/-- M[a], M[a+1], ... <- the bytes, in ascending order (R65, R70). -/
def Memory.writeBytes (m : Memory) (a : Nat) : List Byte → Memory
  | [] => m
  | v :: vs => (m.write a v).writeBytes (a + 1) vs

/-- The canonical form: addresses strictly rise and exist, and no cell holds what an unlisted address
reads as. -/
abbrev Memory.wf (m : Memory) : Prop :=
  m.cells.Pairwise (fun c d => c.1 < d.1) ∧
  ∀ c ∈ m.cells, c.1 < Config.memSize ∧ c.2 ≠ m.unlisted c.1

/-! ## Range checks (R62, R63) -/

/-- The check of a read: an address of 4096 or more has no cell (R62). -/
def readFault (a : Nat) : Option Fault :=
  if a ≥ Config.memSize then some (.undefinedAccess a) else none

/-- The check of a program's write: the font region and the addresses of 4096 or more (R63, R193). -/
def writeFault (a : Nat) : Option Fault :=
  if a < Config.fontLimit then some (.fontOverwrite a) else readFault a

/-- The first fault of `check` over the `n` addresses from `a`, in ascending order (R193, R304). -/
def firstFault (check : Nat → Option Fault) (a : Nat) : Nat → Option Fault
  | 0 => none
  | n + 1 =>
    match check a with
    | some f => some f
    | none => firstFault check (a + 1) n

end Sys2Proof.Machine
end

