-- ==== Sys2Proof/Machine/Ops.lean ====
section
/-! DEFINITION. The named operations every meaning is written over: the general registers, the program
counter, the return stack, completing a step with its diagnostic, and fetching the instruction word. -/

namespace Sys2Proof.Machine

/-- The outcome of an instruction or a step. -/
abbrev Result := Host.Outcome State Fault Refusal

/-! ## General registers (R11, R31) -/

/-- A read of V[r]. -/
def State.getV (s : State) (r : Reg) : Byte := s.v.get r

/-- V[r] <- b. -/
def State.setV (s : State) (r : Reg) (b : Byte) : State := { s with v := s.v.set r b }

/-! ## Memory, the index register, the timers and the framebuffer, each written whole -/

/-- M <- m. -/
def State.setMem (s : State) (m : Memory) : State := { s with mem := m }

/-- I <- a (R33). -/
def State.setI (s : State) (a : Word) : State := { s with i := a }

/-- DT <- b (R37). -/
def State.setDt (s : State) (b : Byte) : State := { s with dt := b }

/-- ST <- b (R37). -/
def State.setSt (s : State) (b : Byte) : State := { s with st := b }

/-- FB <- fb (R38). -/
def State.setFb (s : State) (fb : Framebuffer) : State := { s with fb := fb }

/-! ## Program counter (R34) -/

/-- pc <- target. -/
def State.setPc (s : State) (target : Word) : State := { s with pc := target }

/-- pc <- pc + 2, the normal advance. -/
def State.advance (s : State) : State := s.setPc (s.pc + 2)

/-- A conditional skip: pc + 4 when it is taken, else pc + 2 (R41). -/
def State.skipIf (taken : Bool) (s : State) : State := s.setPc (if taken then s.pc + 4 else s.pc + 2)

/-! ## Return stack (R36) -/

/-- Push when a slot is free: write Stack[SP], then increment SP. None when all 16 are occupied. -/
def State.push (s : State) (a : Word) : Option State :=
  if h : s.sp.val < 16 then
    some { s with stack := s.stack.set s.sp.val a, sp := ⟨s.sp.val + 1, by omega⟩ }
  else none

/-- Pop when a slot is occupied: decrement SP, then read Stack[SP]. The slot keeps its value (D25,
log 25). None when no slot is occupied. -/
def State.pop (s : State) : Option (Word × State) :=
  match h : s.sp.val with
  | 0 => none
  | n + 1 => some (s.stack[n], { s with sp := ⟨n, by omega⟩ })

/-! ## Ending a step (R13, R44) -/

/-- Append the step's diagnostic to DiagLog. -/
def State.log (s : State) (d : Diag) : State := { s with diagLog := s.diagLog ++ [d] }

/-- A normal end: the writes stand and the diagnostic is None. -/
def complete (s : State) : Result := .next (s.log .none)

/-- A normal end of an instruction that only falls through: pc + 2. -/
def completeNext (s : State) : Result := complete s.advance

/-- Reporting a diagnostic (R301, R306): what this core does in place of taking an exception. It saves
no state and goes to no vector. pc goes past the instruction and nothing else changes. There is no
return from it (R307). -/
def reportDiagnostic (d : Diag) (s : State) : Result := .next (s.advance.log d)

/-- Raise the fault of a check, or go on when there is none (R13, R303). -/
def checked (check : Option Fault) (go : Result) : Result :=
  match check with
  | some f => .fault f
  | none => go

/-! ## Fetch and the unsupported word (R101, R102) -/

/-- The range check of the fetch: both bytes must exist, and the first address that does not is reported
(R101). -/
def fetchFault (s : State) : Option Fault :=
  if s.pc.toNat > 0xFFE then
    some (.undefinedAccess (if s.pc.toNat > 0xFFF then s.pc.toNat else s.pc.toNat + 1))
  else none

/-- The word at pc, big-endian (R65, R101). -/
def fetchWord (s : State) : Word :=
  wordOfBytes (s.mem.read s.pc.toNat) (s.mem.read (s.pc.toNat + 1))

/-- An unsupported word: the diagnostic names the word and its address (R102). -/
def reportUnsupported (w : Word) (s : State) : Result :=
  reportDiagnostic (.unsupportedOpcode w s.pc) s

end Sys2Proof.Machine
end

