-- ==== Sys2Proof/Machine/Flags.lean ====
section
/-! DEFINITION. The values VF receives (R32): carry, not-borrow, the bit a shift loses, and collision.
Each is computed from the operands read before any write (R14, C9). -/

namespace Sys2Proof.Machine

/-- A flag as a register value: 1 or 0. -/
def flagByte (b : Bool) : Byte := if b then 1 else 0

/-- VF <- flag. -/
def State.setVF (s : State) (b : Byte) : State := s.setV VF b

/-- The carry of ADD Vx,Vy: the unmodded 9-bit sum is over 255 (R166). -/
def carryFlag (vx vy : Byte) : Byte := flagByte (decide (vx.toNat + vy.toNat > 255))

/-- The flag of the subtraction a - b: 0 when it borrows, else 1 (R167, R169). -/
def notBorrowFlag (a b : Byte) : Byte := flagByte (!decide (b.toNat > a.toNat))

/-- The bit SHR loses: bit 0 before the shift (R168). -/
def shrFlag (vx : Byte) : Byte := vx &&& 1

/-- The bit SHL loses: bit 7 before the shift (R170). -/
def shlFlag (vx : Byte) : Byte := (vx >>> 7) &&& 1

end Sys2Proof.Machine
end

