-- ==== Sys2Proof/Machine/Operands.lean ====
section
/-! DEFINITION. Every operand form of 30_encoding.md R93 and of the instruction rules: immediates,
addresses formed from I, runs of registers, decimal digits, and the register a shift reads. -/

namespace Sys2Proof.Machine

/-- A 12-bit address operand, zero-extended to 16 bits (R93). -/
def addressOperand (nnn : Nat) : Word := BitVec.ofNat 16 nnn

/-- A register value, zero-extended to 16 bits (R137, R191). -/
def zext16 (b : Byte) : Word := b.setWidth 16

/-- The addresses an instruction reaches through I start here. I is not masked, and address arithmetic
is on unbounded numbers, so that it never wraps (R10, R33, R62). -/
def State.indexAddress (s : State) : Nat := s.i.toNat

/-- The address LD F gives: FONT_BASE + 5 Vx, on the full 8-bit value (R192). -/
def fontAddress (vx : Byte) : Word := BitVec.ofNat 16 (Config.fontBase + Config.glyphBytes * vx.toNat)

/-- The three decimal digits of a byte, most significant first (R193). -/
def decimalDigits (vx : Byte) : List Byte :=
  [BitVec.ofNat 8 (vx.toNat / 100), BitVec.ofNat 8 (vx.toNat / 10 % 10), BitVec.ofNat 8 (vx.toNat % 10)]

/-- The values of V0..Vx, x included (R194). -/
def regBytes (s : State) (x : Reg) : List Byte := s.v.toList.take (x.val + 1)

/-- V0..Vx, x included, from memory at `a` on; the other registers keep their values (R195). -/
def loadRegs (s : State) (x : Reg) (a : Nat) : State :=
  { s with v := Vector.ofFn fun j => if j ≤ x then s.mem.read (a + j.val) else s.v.get j }

/-- The value SHR and SHL shift, read in the state `s` after their flag write: the latched value, but for
x = 0xF, where SHIFT_VF_ALIAS decides (R9, R168, R170, log 10). -/
def shiftOperand (x : Reg) (latched : Byte) (s : State) : Byte :=
  if x = VF then
    match Config.shiftVfAlias with
    | .latched => latched
    | .reread => s.getV x
  else latched

/-- Is a key pressed now (R262)? -/
def State.anyKey (s : State) : Bool := s.key.toList.any id

end Sys2Proof.Machine
end

