-- ==== Sys2Proof/Machine/ArithLogic.lean ====
section
/-! DEFINITION. The meanings of 41_arith_logic.md: LD, ADD, OR, AND, XOR, SUB, SUBN, SHR, SHL. Operands
are read once, before the first write (R14). ADD, SUB and SUBN write the result and then VF; SHR and SHL
write VF and then the result. -/

namespace Sys2Proof.Machine

/-- `LD Vx, kk` (R160). -/
def execLdImm (x : Reg) (kk : Byte) (s : State) : Result := completeNext (s.setV x kk)

/-- `ADD Vx, kk`: mod 256, no flag (R161). -/
def execAddImm (x : Reg) (kk : Byte) (s : State) : Result := completeNext (s.setV x (s.getV x + kk))

/-- `LD Vx, Vy` (R162). -/
def execLdReg (x y : Reg) (s : State) : Result := completeNext (s.setV x (s.getV y))

/-- `OR Vx, Vy`, no flag (R163). -/
def execOrReg (x y : Reg) (s : State) : Result := completeNext (s.setV x (s.getV x ||| s.getV y))

/-- `AND Vx, Vy`, no flag (R164). -/
def execAndReg (x y : Reg) (s : State) : Result := completeNext (s.setV x (s.getV x &&& s.getV y))

/-- `XOR Vx, Vy`, no flag (R165). -/
def execXorReg (x y : Reg) (s : State) : Result := completeNext (s.setV x (s.getV x ^^^ s.getV y))

/-- `ADD Vx, Vy`: the sum mod 256, then VF = carry (R166). -/
def execAddReg (x y : Reg) (s : State) : Result :=
  let vx := s.getV x
  let vy := s.getV y
  completeNext ((s.setV x (vx + vy)).setVF (carryFlag vx vy))

/-- `SUB Vx, Vy`: Vx - Vy mod 256, then VF = not borrow (R167). -/
def execSubReg (x y : Reg) (s : State) : Result :=
  let vx := s.getV x
  let vy := s.getV y
  completeNext ((s.setV x (vx - vy)).setVF (notBorrowFlag vx vy))

/-- `SUBN Vx, Vy`: Vy - Vx mod 256, then VF = not borrow (R169). -/
def execSubnReg (x y : Reg) (s : State) : Result :=
  let vx := s.getV x
  let vy := s.getV y
  completeNext ((s.setV x (vy - vx)).setVF (notBorrowFlag vy vx))

/-- `SHR Vx`: VF = bit 0, then Vx >> 1 (R168). -/
def execShr (x : Reg) (s : State) : Result :=
  let vx := s.getV x
  let flagged := s.setVF (shrFlag vx)
  completeNext (flagged.setV x (shiftOperand x vx flagged >>> 1))

/-- `SHL Vx`: VF = bit 7, then Vx << 1 mod 256 (R170). -/
def execShl (x : Reg) (s : State) : Result :=
  let vx := s.getV x
  let flagged := s.setVF (shlFlag vx)
  completeNext (flagged.setV x (shiftOperand x vx flagged <<< 1))

end Sys2Proof.Machine
end

