-- ==== Sys2Proof/Machine/Control.lean ====
section
/-! DEFINITION. The meanings of 40_control_flow.md: JP, CALL, RET, the four register skips, JP V0. -/

namespace Sys2Proof.Machine

/-- `JP nnn` (R130). -/
def execJp (nnn : Nat) (s : State) : Result := complete (s.setPc (addressOperand nnn))

/-- `CALL nnn`: push the address of the CALL itself and jump; with 16 slots occupied, report
StackOverflow (R131). -/
def execCall (nnn : Nat) (s : State) : Result :=
  match s.push s.pc with
  | some pushed => complete (pushed.setPc (addressOperand nnn))
  | none => reportDiagnostic .stackOverflow s

/-- `RET`: pop into pc and add 2; with no slot occupied, report StackUnderflow (R132). -/
def execRet (s : State) : Result :=
  match s.pop with
  | some (a, popped) => complete (popped.setPc (a + 2))
  | none => reportDiagnostic .stackUnderflow s

/-- `SE Vx, kk` (R133). -/
def execSeImm (x : Reg) (kk : Byte) (s : State) : Result := complete (s.skipIf (s.getV x == kk))

/-- `SNE Vx, kk` (R134). -/
def execSneImm (x : Reg) (kk : Byte) (s : State) : Result := complete (s.skipIf (s.getV x != kk))

/-- `SE Vx, Vy` (R135). -/
def execSeReg (x y : Reg) (s : State) : Result := complete (s.skipIf (s.getV x == s.getV y))

/-- `SNE Vx, Vy` (R136). -/
def execSneReg (x y : Reg) (s : State) : Result := complete (s.skipIf (s.getV x != s.getV y))

/-- `JP V0, nnn`: the register is always V0, and the sum is not reduced to 12 bits (R137). -/
def execJpV0 (nnn : Nat) (s : State) : Result :=
  complete (s.setPc (addressOperand nnn + zext16 (s.getV 0)))

end Sys2Proof.Machine
end

