-- ==== Sys2Proof/Machine/Display.lean ====
section
/-! DEFINITION. The meanings of 43_display.md: CLS and DRW, with the sprite rasterizer and the collision
detector. -/

namespace Sys2Proof.Machine

/-- FB[col, row] (R38). -/
def Framebuffer.cell (fb : Framebuffer) (col : Fin 64) (row : Fin 32) : Bool := (fb.get row).get col

/-- FB[col, row] <- b. -/
def Framebuffer.setCell (fb : Framebuffer) (col : Fin 64) (row : Fin 32) (b : Bool) : Framebuffer :=
  fb.set row ((fb.get row).set col b)

/-- Every cell false (R210). -/
def Framebuffer.blank : Framebuffer := Vector.replicate 32 (Vector.replicate 64 false)

/-- A draw in progress: the framebuffer so far, and whether a cell has been turned off. -/
abbrev Drawing := Framebuffer × Bool

/-- XOR one set pixel into the cell at (col mod 64, row mod 32), and note a collision when that cell was
on (R211, R212). -/
def Drawing.toggle (d : Drawing) (col row : Nat) : Drawing :=
  let cx := Fin.ofNat 64 col
  let cy := Fin.ofNat 32 row
  (d.1.setCell cx cy (!d.1.cell cx cy), d.2 || d.1.cell cx cy)

/-- Draw one sprite row with its leftmost pixel, bit 7, at column `ox` (R211, R213). -/
def Drawing.row (d : Drawing) (b : Byte) (ox row : Nat) : Drawing :=
  (List.range 8).foldl (fun d col => if b.getLsbD (7 - col) then d.toggle (ox + col) row else d) d

/-- Draw `n` sprite rows from memory at `a`, the first at row `oy` (R211). -/
def Drawing.sprite (d : Drawing) (m : Memory) (a n ox oy : Nat) : Drawing :=
  (List.range n).foldl (fun d r => d.row (m.read (a + r)) ox (oy + r)) d

/-- `CLS` (R210). -/
def execCls (s : State) : Result := completeNext (s.setFb Framebuffer.blank)

/-- `DRW Vx, Vy, n`: the origin is read before VF is written (R211, D9), every row's address is checked
before VF or FB changes, and VF ends as the collision flag (R212). VF is set to 0 at the start; the
sprite is read from memory, so only the final value shows. -/
def execDrw (x y : Reg) (n : Nat) (s : State) : Result :=
  let ox := (s.getV x).toNat
  let oy := (s.getV y).toNat
  let cleared := s.setVF 0
  let drawn := Drawing.sprite (cleared.fb, false) cleared.mem s.indexAddress n ox oy
  checked (firstFault readFault s.indexAddress n)
    (completeNext ((cleared.setFb drawn.1).setVF (flagByte drawn.2)))

end Sys2Proof.Machine
end

