-- ==== Sys2Proof/Machine/Input.lean ====
section
/-! DEFINITION. The meanings of 46_input.md: SKP, SKNP and the poll-driven wait for a key. No
instruction writes Key or LastKey (R263). -/

namespace Sys2Proof.Machine

/-- A skip on the pressed flag of the key V[x], when it is the given one. V[x] of 16 or more names no key
and faults (R260, R261, D7). -/
def skipOnKey (x : Reg) (pressed : Bool) (s : State) : Result :=
  if h : (s.getV x).toNat < 16 then
    complete (s.skipIf (s.key[(s.getV x).toNat] == pressed))
  else .fault (.keyIndexOutOfRange (s.getV x))

/-- `SKP Vx` (R260). -/
def execSkp (x : Reg) (s : State) : Result := skipOnKey x true s

/-- `SKNP Vx` (R261). -/
def execSknp (x : Reg) (s : State) : Result := skipOnKey x false s

/-- `LD Vx, K`: with no key pressed nothing is written and pc stays, so that the same fetch repeats;
with a key pressed, Vx := LastKey as the host supplied it (R262, D19). -/
def execLdVxK (x : Reg) (s : State) : Result :=
  if s.anyKey then completeNext (s.setV x (BitVec.ofNat 8 s.lastKey.val)) else complete s

end Sys2Proof.Machine
end

