-- ==== Sys2Proof/Machine/Random.lean ====
section
/-! DEFINITION. The random byte and the meaning of RND (45_random.md). The byte is a free value (log 14). -/

namespace Sys2Proof.Machine

/-- `Draw8()`: the generator's next byte, any of the 256 values (R250). -/
def State.draw8 (s : State) : Byte := Config.draw8 s.rng.seed s.rng.drawn

/-- The generator after one draw. -/
def State.afterDraw (s : State) : State := { s with rng := { s.rng with drawn := s.rng.drawn + 1 } }

/-- The generator seeded afresh: by the host's seed, or by a new draw from the entropy source (R252). -/
def Rng.reseed (r : Rng) : Option Nat → Rng
  | some seed => { r with seed := .supplied seed, drawn := 0 }
  | none => { seed := .entropy r.entropyUsed, drawn := 0, entropyUsed := r.entropyUsed + 1 }

/-- `RND Vx, kk`: a random byte AND kk (R251). -/
def execRnd (x : Reg) (kk : Byte) (s : State) : Result :=
  completeNext (s.afterDraw.setV x (s.draw8 &&& kk))

end Sys2Proof.Machine
end

