-- ==== Sys2Proof/Machine/Timers.lean ====
section
/-! DEFINITION. The meanings of 44_timers.md: LD Vx,DT, LD DT,Vx, LD ST,Vx. No tick happens inside an
instruction (R101, C3); the tick is a host operation (HostOps.lean). -/

namespace Sys2Proof.Machine

/-- `LD Vx, DT` (R230). -/
def execLdVxDt (x : Reg) (s : State) : Result := completeNext (s.setV x s.dt)

/-- `LD DT, Vx` (R231). -/
def execLdDt (x : Reg) (s : State) : Result := completeNext (s.setDt (s.getV x))

/-- `LD ST, Vx` (R232). -/
def execLdSt (x : Reg) (s : State) : Result := completeNext (s.setSt (s.getV x))

end Sys2Proof.Machine
end

