-- ==== Sys2Proof/Machine/Transfer.lean ====
section
/-! DEFINITION. The meanings of 42_memory_transfer.md: LD I, ADD I, LD F, LD B, LD [I], LD Vx,[I]. Every
address is checked before the first write, so a fault changes nothing. I is never changed by an access. -/

namespace Sys2Proof.Machine

/-- `LD I, nnn` (R190). -/
def execLdI (nnn : Nat) (s : State) : Result := completeNext (s.setI (addressOperand nnn))

/-- `ADD I, Vx`: mod 65536, no flag, no bound checked (R191, D15). -/
def execAddI (x : Reg) (s : State) : Result := completeNext (s.setI (s.i + zext16 (s.getV x)))

/-- `LD F, Vx` (R192). -/
def execLdF (x : Reg) (s : State) : Result := completeNext (s.setI (fontAddress (s.getV x)))

/-- Store bytes at I on, after checking every address (R63, R193, R194). -/
def storeAtIndex (bytes : List Byte) (s : State) : Result :=
  checked (firstFault writeFault s.indexAddress bytes.length)
    (completeNext (s.setMem (s.mem.writeBytes s.indexAddress bytes)))

/-- `LD B, Vx`: the decimal digits at I, I+1, I+2 (R193). -/
def execLdB (x : Reg) (s : State) : Result := storeAtIndex (decimalDigits (s.getV x)) s

/-- `LD [I], Vx`: V0..Vx at I on (R194). -/
def execLdStore (x : Reg) (s : State) : Result := storeAtIndex (regBytes s x) s

/-- `LD Vx, [I]`: V0..Vx from I on (R195). -/
def execLdLoad (x : Reg) (s : State) : Result :=
  checked (firstFault readFault s.indexAddress (x.val + 1))
    (completeNext (loadRegs s x s.indexAddress))

end Sys2Proof.Machine
end

