-- ==== Sys2Proof/Machine/Step.lean ====
section
/-! DEFINITION. One step of the core, which is one `advanceCycle` (R101), and the state in which the step
fetches a given word. -/

namespace Sys2Proof.Machine

/-- Fetch, decode, dispatch (R101), in the order of checks of R304. While Fault is set no step is taken
(R303). An unsupported word reports its diagnostic (R102). Timers do not tick here (C3). -/
def step (s : State) : Host.Outcome State Fault Refusal :=
  match s.fault with
  | some f => .fault f
  | none =>
    checked (fetchFault s)
      (match decode (fetchWord s) with
      | .instr i => exec i s
      | .unsupported w => reportUnsupported w s)

/-- `s` with a word of the opcode table stored where `step` fetches, as an outside loader would. When pc
is where no fetch can be, it becomes 0x200; a set Fault, which would hold the core, is cleared
(log 27). -/
def State.withFetchWord (s : State) (nbits w : Nat) : State :=
  let pc : Word := if s.pc.toNat > 0xFFE then 0x200 else s.pc
  { s with mem := s.mem.writeBytes pc.toNat (tableBytes nbits w), pc := pc, fault := none }

end Sys2Proof.Machine
end

