-- ==== Sys2Proof/Machine/HostOps.lean ====
section
/-! DEFINITION. The host interface (47_host_operations.md): the seven operations of R280, each an atomic
transaction between two instructions (R287), and a run of any list of them (R285). -/

namespace Sys2Proof.Machine

/-- The code the spec gives a diagnostic kind (R301, D21). -/
def Diag.code : Diag → Nat
  | .none => 0
  | .unsupportedOpcode _ _ => 1
  | .stackOverflow => 2
  | .stackUnderflow => 3

/-- The diagnostic of the last completed `advanceCycle`. -/
def State.lastDiag (s : State) : Diag := s.diagLog.getLastD .none

/-- `reset([seed])`: every component to its reset value, the generator seeded afresh (R340).
The instance keeps its FONT (R45). -/
def hostReset (seed : Option Nat) (s : State) : State :=
  { State.resetWith s.mem.font with rng := s.rng.reseed seed }

/-- `loadProgram(bytes)`: copy to 0x200 on, or `none` for ProgramTooLarge (R281). It does not use the
program's write primitive (R63). -/
def loadProgram (bytes : List Byte) (s : State) : Option State :=
  if bytes.length > Config.progMax then none
  else some { s with mem := s.mem.writeBytes Config.progBase bytes }

/-- `tickTimers()`: each timer above 0 counts down by one (R233). -/
def tickTimers (s : State) : State :=
  { s with
    dt := if s.dt.toNat > 0 then s.dt - 1 else s.dt
    st := if s.st.toNat > 0 then s.st - 1 else s.st }

/-- `setKeyState(pressedFlags, lastPressedIndex)`: replace the snapshot (R263). -/
def setKeyState (pressed : Vector Bool 16) (last : KeyIdx) (s : State) : State :=
  { s with key := pressed, lastKey := last }

/-- `framebufferView()` (R282). -/
def framebufferView (s : State) : Framebuffer := s.fb

/-- `isBeeping()` (R234). -/
def isBeeping (s : State) : Bool := decide (s.st.toNat > 0)

/-- A call of the host (R280). `lastPressedIndex` is a key index by type (D8). -/
inductive HostOp where
  | reset (seed : Option Nat)
  | loadProgram (bytes : List Byte)
  | advanceCycle
  | tickTimers
  | setKeyState (pressed : Vector Bool 16) (last : KeyIdx)
  | framebufferView
  | isBeeping
deriving DecidableEq, Repr

/-- What a call gives back (R280, R302). R280 gives `advanceCycle` only diagnostics as results. `faulted` is
the model's own reply of a call that takes no step to a next state (DESIGN CHOICE, log 30): a cycle that
faults, and every call while Fault is set. `refused` is for an instruction with no meaning, of which there
is none. -/
inductive HostReply where
  | done
  | ok
  | programTooLarge
  | diagnostic (d : Diag)
  | grid (fb : Framebuffer)
  | beeping (b : Bool)
  | faulted (f : Fault)
  | refused (r : Refusal)
deriving DecidableEq, Repr

/-- `advanceCycle()`: one step, and its diagnostic (R101, R284). A fault writes nothing but the Fault
component (R303). While Fault is set no step is taken (R303, U13); what the call then returns the spec
leaves open, and the model repeats the reply `faulted` with that fault, with no diagnostic and nothing
logged (DESIGN CHOICE, log 30). -/
def advanceCycle (s : State) : State × HostReply :=
  match step s with
  | .next t => (t, .diagnostic t.lastDiag)
  | .fault f => ({ s with fault := some f }, .faulted f)
  | .refused r => (s, .refused r)

/-- One call of the host. -/
def hostCall (op : HostOp) (s : State) : State × HostReply :=
  match op with
  | .reset seed => (hostReset seed s, .done)
  | .loadProgram bytes =>
    match loadProgram bytes s with
    | some t => (t, .ok)
    | none => (s, .programTooLarge)
  | .advanceCycle => advanceCycle s
  | .tickTimers => (tickTimers s, .done)
  | .setKeyState pressed last => (setKeyState pressed last s, .done)
  | .framebufferView => (s, .grid (framebufferView s))
  | .isBeeping => (s, .beeping (isBeeping s))

/-- The state after a list of calls, in order (R285, R287). -/
def hostRun (ops : List HostOp) (s : State) : State :=
  ops.foldl (fun s op => (hostCall op s).1) s

end Sys2Proof.Machine
end

