-- ==== Sys2Proof/Safety.lean ====
section
/-! DEFINITION. The terms claims use: the invariant of the core, a run with no diagnostic and no fault
(R44), and the end of a run (R354). -/

namespace Sys2Proof.Machine

/-- The font region holds the font: "never overwritten by program execution" (R61, R348). -/
def State.fontIntact (s : State) : Prop :=
  ∀ a, a < Config.fontLimit → s.mem.read a = s.mem.unlisted a

/-- The bounds of R35: pc is at most 0x10FE, and every stack slot holds the address of an instruction that
was fetched, at most 0xFFE. -/
def State.pcBounded (s : State) : Prop :=
  s.pc.toNat ≤ 0x10FE ∧ ∀ j : Fin 16, (s.stack.get j).toNat ≤ 0xFFE

/-- The invariant of the core: memory is in its canonical form, the font stands, and pc and the return
addresses are in their range. -/
structure State.Inv (s : State) : Prop where
  memWf : s.mem.wf
  font : s.fontIntact
  bounds : s.pcBounded

/-- No spec fault has been raised, and no diagnostic reported (R44). -/
def State.Clean (s : State) : Prop := s.fault = none ∧ ∀ d ∈ s.diagLog, d = .none

/-- A run of `n` cycles with no host operation between them that ends with no fault, no diagnostic and
no refusal. -/
def SafeRun (n : Nat) (s : State) : Prop :=
  ∃ t : State, Sys2Proof.core.run n s = .next t ∧ t.Clean

/-- No key is pressed and no timer is nonzero (R354). -/
def State.Quiet (s : State) : Prop := s.anyKey = false ∧ s.dt = 0 ∧ s.st = 0

/-- The end of a program (R354, D22): no key is pressed, no timer is nonzero, and pc no longer changes
however many cycles follow. -/
def State.Ended (s : State) : Prop :=
  s.Quiet ∧ ∀ n, ∃ t : State, Sys2Proof.core.run n s = .next t ∧ t.pc = s.pc

/-! ## What an instruction leaves unchanged -/

/-- Every register but those listed keeps its value. -/
def KeepsRegs (changed : List Reg) (s t : State) : Prop := ∀ r, r ∉ changed → t.getV r = s.getV r

/-- Every byte of memory reads as before. -/
def KeepsMemory (s t : State) : Prop := ∀ a, t.mem.read a = s.mem.read a

/-- Every byte of memory outside the `n` bytes from `a` on reads as before. -/
def KeepsMemoryOutside (a n : Nat) (s t : State) : Prop :=
  ∀ b, b < a ∨ a + n ≤ b → t.mem.read b = s.mem.read b

/-- Everything but the general registers, the bytes of memory, pc and DiagLog keeps its value. -/
structure KeepsUnits (s t : State) : Prop where
  index : t.i = s.i
  stack : t.stack = s.stack
  sp : t.sp = s.sp
  dt : t.dt = s.dt
  st : t.st = s.st
  fb : t.fb = s.fb
  key : t.key = s.key
  lastKey : t.lastKey = s.lastKey
  rng : t.rng = s.rng
  fault : t.fault = s.fault
  font : t.mem.font = s.mem.font

/-- The frame of an instruction that writes no more than the listed registers, pc and DiagLog. -/
def ChangesOnly (changed : List Reg) (s t : State) : Prop :=
  KeepsRegs changed s t ∧ KeepsMemory s t ∧ KeepsUnits s t

/-- The cycle's diagnostic is `d`: DiagLog grows by it at its end (R44). -/
def Logs (d : Diag) (s t : State) : Prop := t.diagLog = s.diagLog ++ [d]

/-- Is the pixel that a DRW of `n` rows with origin (ox, oy) puts on the cell FB[c, r] a set pixel of the
sprite at I (R211, R213)? The row and the column within the sprite are the distances from the origin,
mod 32 and mod 64. -/
def State.spritePixel (s : State) (ox oy n : Nat) (c : Fin 64) (r : Fin 32) : Bool :=
  let dr := (r.val + 32 - oy % 32) % 32
  let dc := (c.val + 64 - ox % 64) % 64
  decide (dr < n) && decide (dc < 8) && (s.mem.read (s.indexAddress + dr)).getLsbD (7 - dc)

end Sys2Proof.Machine
end

