-- ==== Sys2Proof/Certificates/Slice0/Obligations.lean ====
section
/-! DEFINITION. The statements for the provers, each a numbered rule of spec/ or a consequence of several.
The encoding line of an instruction's rule is the spec's own choice (D1, log 1) and is stated apart, by
the statements about decode. -/

open Sys2Proof Sys2Proof.Machine

/-! ## Encoding -/

/-- R92, R94, R95, R98: decoding the word of an encodable instruction, or its two bytes with any bytes
after them, gives the instruction back, with every operand at every value its field admits. -/
def Obligations.DecodeOfEncodeGivesTheInstruction : Prop :=
  ∀ (i : Instr) (rest : List Byte), i.wellFormed = true →
    decode (encode i) = .instr i ∧ decodeBytes (encodeBytes i ++ rest) = .ok (i, rest)

/-- R91, R97: what the decoder reads from a word is encodable, and its encoding is the word with the
ignored bits cleared: no other bit of the word is lost (which bits are ignored: D2 and D23, logs 2
and 23). -/
def Obligations.DecodedInstructionReencodesToItsWord : Prop :=
  ∀ (w : Word) (i : Instr), decode w = .instr i →
    i.wellFormed = true ∧ w &&& i.careBits = encode i

/-- R94, R95: a word decodes to an instruction of the opcode table's row that selects it, and every word
a row selects decodes to an instruction of that row, so that no word is selected by two rows. The rows'
match values are the spec's D1 (log 1), the masks its D2 (log 2). -/
def Obligations.DecodeSelectsTheMatchingTableRow : Prop :=
  (∀ (w : Word) (i : Instr), decode w = .instr i → w &&& i.maskBits = i.matchBits) ∧
  (∀ (w : Word) (j : Instr), w &&& j.maskBits = j.matchBits →
    ∃ i, decode w = .instr i ∧ i.matchBits = j.matchBits)

/-- R96: the unsupported words, family by family (opcode values: D1, log 1). -/
def Obligations.UnsupportedWordsByFamily : Prop :=
  ∀ w : Word, decode w = .unsupported w ↔
    (fieldOp w = 0x0 ∧ fieldKk w ≠ 0xE0 ∧ fieldKk w ≠ 0xEE) ∨
    (fieldOp w = 0x8 ∧ fieldN w ∈ [0x8, 0x9, 0xA, 0xB, 0xC, 0xD, 0xF]) ∨
    (fieldOp w = 0xE ∧ fieldKk w ≠ 0x9E ∧ fieldKk w ≠ 0xA1) ∨
    (fieldOp w = 0xF ∧ fieldKk w ∉ [0x07, 0x0A, 0x15, 0x18, 0x1E, 0x29, 0x33, 0x55, 0x65])

/-- R97: two words that differ only in bits their instruction ignores decode to the same instruction. Which
bits are ignored is the spec's own decision: D2 (log 2), and D23 (log 23) for the y nibble of SHR and
SHL. -/
def Obligations.IgnoredBitsDoNotChangeTheInstruction : Prop :=
  ∀ (w w' : Word) (i : Instr), decode w = .instr i → w' &&& i.careBits = w &&& i.careBits →
    decode w' = .instr i

/-- 95_test_vectors.md: words written out from the encodings of R92 decode as the spec lists them, one or
more of each family (opcode values: D1, log 1). A sanity statement. -/
def Obligations.ListedWordsDecodeAsTheSpecLists : Prop :=
  decodeBytes [0x12, 0x34] = .ok (.jp 0x234, []) ∧
  decodeBytes [0x0A, 0xEE] = .ok (.ret, []) ∧
  decodeBytes [0x51, 0x21] = .ok (.seReg 1 2, []) ∧
  decodeBytes [0x81, 0x24] = .ok (.addReg 1 2, []) ∧
  decodeBytes [0x81, 0xE6] = .ok (.shr 1, []) ∧
  decodeBytes [0xC1, 0xF0] = .ok (.rnd 1 0xF0, []) ∧
  decodeBytes [0xD0, 0x15] = .ok (.drw 0 1 5, []) ∧
  decodeBytes [0xE4, 0xA1] = .ok (.sknp 4, []) ∧
  decodeBytes [0xF5, 0x07] = .ok (.ldVxDt 5, []) ∧
  decodeBytes [0xF2, 0x65] = .ok (.ldLoad 2, []) ∧
  decodeBytes [0x81, 0x28] = .error (.unsupportedOpcode 0x8128)

/-! ## The cycle step -/

/-- R101: with no fault set and pc in range, when the two bytes at pc decode to an instruction the step is
that instruction's meaning at this very state, pc included, and nothing is added around it. -/
def Obligations.StepRunsTheDecodedInstruction : Prop :=
  ∀ (s : State) (i : Instr), s.fault = none → s.pc.toNat ≤ 0xFFE →
    decodeBytes [s.mem.read s.pc.toNat, s.mem.read (s.pc.toNat + 1)] = .ok (i, []) →
    step s = exec i s

/-- A word placed where the step fetches is the word that runs: the step from `s.withFetchWord 16 w` is
the meaning of what the decoder reads from w (log 27). -/
def Obligations.PlacedWordRunsNext : Prop :=
  ∀ (s : State) (w : Nat) (i : Instr), decodeTableWord 16 w = some i →
    step (s.withFetchWord 16 w) = exec i (s.withFetchWord 16 w)

/-- R101, R62: a fetch with pc or pc + 1 past memory faults with the first such address, whatever else the
state holds (the fault is the spec's D5, log 5). -/
def Obligations.FetchPastMemoryFaults : Prop :=
  ∀ s : State, s.fault = none → s.pc.toNat > 0xFFE →
    step s = .fault (.undefinedAccess (max s.pc.toNat 4096))

/-- R102, R301: an unsupported word reports UnsupportedOpcode with the word and its address, advances pc by
2 and changes nothing else. The word is the two bytes at pc, big-endian (R65, R101). That the report
carries the word and its address is the spec's own decision D21 (log 21). -/
def Obligations.UnsupportedWordIsReportedAndSkipped : Prop :=
  ∀ (s : State) (w : Word), s.fault = none → s.pc.toNat ≤ 0xFFE →
    decodeBytes [s.mem.read s.pc.toNat, s.mem.read (s.pc.toNat + 1)] = .error (.unsupportedOpcode w) →
    w.toNat = 256 * (s.mem.read s.pc.toNat).toNat + (s.mem.read (s.pc.toNat + 1)).toNat ∧
    ∃ t, step s = .next t ∧ t.pc = s.pc + 2 ∧ Logs (.unsupportedOpcode w s.pc) s t ∧
      ChangesOnly [] s t

/-- R303, R44: while Fault is set no step is taken; `advanceCycle` changes nothing, every other host
operation but `reset` leaves Fault set, and `reset` clears it (the spec's D11, log 11). What `advanceCycle`
returns then, the reply `faulted`, is the model's choice (log 30). -/
def Obligations.FaultIsStickyUntilReset : Prop :=
  ∀ (s : State) (f : Fault), s.fault = some f →
    step s = .fault f ∧ hostCall .advanceCycle s = (s, .faulted f) ∧
    (∀ op, (∀ seed, op ≠ .reset seed) → (hostCall op s).1.fault = some f) ∧
    (∀ seed, (hostCall (.reset seed) s).1.fault = none)

/-- R303, R68: a cycle that faults applies no write: `advanceCycle` leaves every component of the hardware
as it was and only records the fault (D11, log 11). The reply `faulted` is the model's choice (log 30). -/
def Obligations.FaultingCycleWritesNothing : Prop :=
  ∀ (s : State) (f : Fault), step s = .fault f →
    hostCall .advanceCycle s = ({ s with fault := some f }, .faulted f)

/-- R284, R44: a completed cycle appends exactly one diagnostic to DiagLog, and `advanceCycle` returns
that diagnostic (D11, log 11). -/
def Obligations.CompletedCycleReturnsTheDiagnosticItLogs : Prop :=
  ∀ s t : State, step s = .next t →
    ∃ d, Logs d s t ∧ hostCall .advanceCycle s = (t, .diagnostic d)

/-- R301, R306: a cycle that reports a diagnostic other than None sets pc to pc + 2 and changes nothing
else. The kinds are raised by an unsupported word, a CALL with SP = 16 and a RET with SP = 0. That
UnsupportedOpcode carries the word and its address is the spec's own decision D21 (log 21). -/
def Obligations.DiagnosticOnlyAdvancesPc : Prop :=
  ∀ (s t : State) (d : Diag), step s = .next t → Logs d s t → d ≠ .none →
    t.pc = s.pc + 2 ∧ ChangesOnly [] s t ∧
    ((∃ w, d = .unsupportedOpcode w s.pc ∧ decode (fetchWord s) = .unsupported w) ∨
     (d = .stackOverflow ∧ s.sp = 16 ∧ ∃ nnn, decode (fetchWord s) = .instr (.call nnn)) ∨
     (d = .stackUnderflow ∧ s.sp = 0 ∧ decode (fetchWord s) = .instr .ret))

/-- R303: which instruction raises which fault, and on which value (the faults are the spec's D5, D6, D7,
logs 5, 6, 7). -/
def Obligations.FaultsComeOnlyFromTheirInstructions : Prop :=
  ∀ (i : Instr) (s : State) (f : Fault), exec i s = .fault f →
    (∃ a, f = .undefinedAccess a ∧ 4096 ≤ a ∧ s.i.toNat ≤ a ∧
      ((∃ x y n, i = .drw x y n ∧ a < s.i.toNat + n) ∨ (∃ x, i = .ldB x ∧ a < s.i.toNat + 3) ∨
       (∃ x : Reg, i = .ldStore x ∧ a ≤ s.i.toNat + x.val) ∨
       (∃ x : Reg, i = .ldLoad x ∧ a ≤ s.i.toNat + x.val))) ∨
    (∃ x, f = .fontOverwrite s.i.toNat ∧ s.i.toNat < 0x50 ∧ (i = .ldB x ∨ i = .ldStore x)) ∨
    (∃ x, f = .keyIndexOutOfRange (s.getV x) ∧ 16 ≤ (s.getV x).toNat ∧ (i = .skp x ∨ i = .sknp x))

/-- R300: every step completes or faults. No instruction and no word is refused. -/
def Obligations.NoStepIsRefused : Prop :=
  ∀ (s : State) (r : Refusal), step s ≠ .refused r

/-! ## Invariants -/

/-- R46, R45: the state after reset has the invariant, with the default of FONT and with any other. -/
def Obligations.ResetStateHasTheInvariant : Prop :=
  State.reset.Inv ∧ ∀ font : FontTable, (State.resetWith font).Inv

/-- R35, R36, R61, R348: every step that completes keeps the invariant: memory stays in its canonical
form, the font, whichever table FONT is, is not overwritten, pc stays at most 0x10FE and the return
addresses at most 0xFFE. -/
def Obligations.StepKeepsTheInvariant : Prop :=
  ∀ s t : State, s.Inv → step s = .next t → t.Inv ∧ t.mem.font = s.mem.font

/-- R285, R287: every interleaving of host operations keeps the invariant, from any state that has it,
and the parameter FONT of the instance (R45). -/
def Obligations.HostOperationsKeepTheInvariant : Prop :=
  ∀ (ops : List HostOp) (s : State), s.Inv →
    (hostRun ops s).Inv ∧ (hostRun ops s).mem.font = s.mem.font

/-- R36: a step leaves every stack slot that was occupied before it as it was: a push writes only the free
slot at SP, a pop and every other instruction none (that the popped slot keeps its value is the spec's
D25, log 25). -/
def Obligations.StepKeepsTheOccupiedSlots : Prop :=
  ∀ s t : State, step s = .next t → ∀ j : Fin 16, j.val < s.sp.val → t.stack.get j = s.stack.get j

/-! ## Arithmetic and logic -/

/-- R160, R161: LD Vx,kk loads kk; ADD Vx,kk adds mod 256 and writes no flag. -/
def Obligations.LoadAndAddImmediate : Prop :=
  ∀ (x : Reg) (kk : Byte) (s : State),
    (∃ t, exec (.ldImm x kk) s = .next t ∧ t.getV x = kk ∧
      t.pc = s.pc + 2 ∧ Logs .none s t ∧ ChangesOnly [x] s t) ∧
    (∃ t, exec (.addImm x kk) s = .next t ∧
      (t.getV x).toNat = ((s.getV x).toNat + kk.toNat) % 256 ∧
      t.pc = s.pc + 2 ∧ Logs .none s t ∧ ChangesOnly [x] s t)

/-- R162, R163, R164, R165: LD, OR, AND, XOR of two registers, bit by bit, with no flag written. -/
def Obligations.RegisterMoveAndLogic : Prop :=
  ∀ (x y : Reg) (s : State),
    (∃ t, exec (.ldReg x y) s = .next t ∧ t.getV x = s.getV y ∧
      t.pc = s.pc + 2 ∧ Logs .none s t ∧ ChangesOnly [x] s t) ∧
    (∃ t, exec (.orReg x y) s = .next t ∧
      (∀ b, (t.getV x).getLsbD b = ((s.getV x).getLsbD b || (s.getV y).getLsbD b)) ∧
      t.pc = s.pc + 2 ∧ Logs .none s t ∧ ChangesOnly [x] s t) ∧
    (∃ t, exec (.andReg x y) s = .next t ∧
      (∀ b, (t.getV x).getLsbD b = ((s.getV x).getLsbD b && (s.getV y).getLsbD b)) ∧
      t.pc = s.pc + 2 ∧ Logs .none s t ∧ ChangesOnly [x] s t) ∧
    (∃ t, exec (.xorReg x y) s = .next t ∧
      (∀ b, (t.getV x).getLsbD b = ((s.getV x).getLsbD b != (s.getV y).getLsbD b)) ∧
      t.pc = s.pc + 2 ∧ Logs .none s t ∧ ChangesOnly [x] s t)

/-- R166: ADD Vx,Vy writes the sum mod 256, and then VF = 1 when the sum is over 255, else 0. With x = 0xF
VF ends as the carry. -/
def Obligations.AddRegistersWithCarry : Prop :=
  ∀ (x y : Reg) (s : State),
    ∃ t, exec (.addReg x y) s = .next t ∧
      (x ≠ VF → (t.getV x).toNat = ((s.getV x).toNat + (s.getV y).toNat) % 256) ∧
      t.getV VF = (if (s.getV x).toNat + (s.getV y).toNat > 255 then 1 else 0) ∧
      t.pc = s.pc + 2 ∧ Logs .none s t ∧ ChangesOnly [x, VF] s t

/-- R167, R169: SUB is Vx - Vy and SUBN is Vy - Vx, mod 256; VF ends as 0 when the subtraction borrows,
else 1, and equal operands do not borrow. With x = 0xF VF ends as the flag. -/
def Obligations.SubtractRegistersWithNotBorrow : Prop :=
  ∀ (x y : Reg) (s : State),
    (∃ t, exec (.subReg x y) s = .next t ∧
      (x ≠ VF → ((t.getV x).toNat : Int) = ((s.getV x).toNat - (s.getV y).toNat : Int) % 256) ∧
      t.getV VF = (if (s.getV y).toNat > (s.getV x).toNat then 0 else 1) ∧
      t.pc = s.pc + 2 ∧ Logs .none s t ∧ ChangesOnly [x, VF] s t) ∧
    (∃ t, exec (.subnReg x y) s = .next t ∧
      (x ≠ VF → ((t.getV x).toNat : Int) = ((s.getV y).toNat - (s.getV x).toNat : Int) % 256) ∧
      t.getV VF = (if (s.getV x).toNat > (s.getV y).toNat then 0 else 1) ∧
      t.pc = s.pc + 2 ∧ Logs .none s t ∧ ChangesOnly [x, VF] s t)

/-- R168, R170: SHR halves Vx and SHL doubles it mod 256, with the lost bit in VF. With x = 0xF VF ends as
the result, whose operand SHIFT_VF_ALIAS decides: the latched value, or VF read again after the flag
write (the operand Vx is the spec's D23, the alias its D10; logs 23 and 10). -/
def Obligations.ShiftsLoseOneBitToVf : Prop :=
  ∀ (x : Reg) (s : State),
    (∃ t, exec (.shr x) s = .next t ∧
      (x ≠ VF → (t.getV x).toNat = (s.getV x).toNat / 2 ∧
        (t.getV VF).toNat = (s.getV x).toNat % 2) ∧
      (x = VF → (t.getV VF).toNat =
        match Config.shiftVfAlias with
        | .latched => (s.getV VF).toNat / 2
        | .reread => (s.getV VF).toNat % 2 / 2) ∧
      t.pc = s.pc + 2 ∧ Logs .none s t ∧ ChangesOnly [x, VF] s t) ∧
    (∃ t, exec (.shl x) s = .next t ∧
      (x ≠ VF → (t.getV x).toNat = 2 * (s.getV x).toNat % 256 ∧
        (t.getV VF).toNat = (s.getV x).toNat / 128) ∧
      (x = VF → (t.getV VF).toNat =
        match Config.shiftVfAlias with
        | .latched => 2 * (s.getV VF).toNat % 256
        | .reread => 2 * ((s.getV VF).toNat / 128)) ∧
      t.pc = s.pc + 2 ∧ Logs .none s t ∧ ChangesOnly [x, VF] s t)

/-! ## Control flow -/

/-- R130, R137: JP sets pc to nnn, odd or even; JP V0 sets it to nnn + V0, not reduced to 12 bits. -/
def Obligations.JumpsSetPc : Prop :=
  ∀ (nnn : Nat) (s : State), nnn < 0x1000 →
    (∃ t, exec (.jp nnn) s = .next t ∧ t.pc.toNat = nnn ∧ Logs .none s t ∧ ChangesOnly [] s t) ∧
    (∃ t, exec (.jpV0 nnn) s = .next t ∧ t.pc.toNat = nnn + (s.getV 0).toNat ∧
      Logs .none s t ∧ ChangesOnly [] s t)

/-- R131: CALL with a free slot writes its own address into Stack[SP], increments SP and jumps; with 16
slots occupied it reports StackOverflow and falls through, and all else keeps its value. -/
def Obligations.CallPushesItsOwnAddress : Prop :=
  ∀ (nnn : Nat) (s : State), nnn < 0x1000 →
    (∀ h : s.sp.val < 16, ∃ t, exec (.call nnn) s = .next t ∧ t.pc.toNat = nnn ∧
      t.sp.val = s.sp.val + 1 ∧ t.stack.get ⟨s.sp.val, h⟩ = s.pc ∧
      (∀ j : Fin 16, j.val ≠ s.sp.val → t.stack.get j = s.stack.get j) ∧ Logs .none s t ∧
      ChangesOnly [] { s with stack := t.stack, sp := t.sp } t) ∧
    (s.sp = 16 → ∃ t, exec (.call nnn) s = .next t ∧ t.pc = s.pc + 2 ∧
      Logs .stackOverflow s t ∧ ChangesOnly [] s t)

/-- R132: RET with an occupied slot decrements SP and sets pc to the popped address plus 2, and clears no
slot; with none it reports StackUnderflow and falls through (that the popped slot keeps its value is the
spec's D25, log 25). -/
def Obligations.RetPopsAndAddsTwo : Prop :=
  ∀ s : State,
    (∀ j : Fin 16, s.sp.val = j.val + 1 → ∃ t, exec .ret s = .next t ∧ t.sp.val = j.val ∧
      t.pc = s.stack.get j + 2 ∧ Logs .none s t ∧ ChangesOnly [] { s with sp := t.sp } t) ∧
    (s.sp = 0 → ∃ t, exec .ret s = .next t ∧ t.pc = s.pc + 2 ∧
      Logs .stackUnderflow s t ∧ ChangesOnly [] s t)

/-- R138: after a CALL, code that leaves SP as it found it and the slot of the CALL as it was, and then a
RET: pc is the address after the CALL, and SP is restored. -/
def Obligations.CallThenRetReturnsAfterTheCall : Prop :=
  ∀ (nnn : Nat) (s called later : State), s.sp.val < 16 → exec (.call nnn) s = .next called →
    later.sp = called.sp → (∀ j : Fin 16, j.val = s.sp.val → later.stack.get j = called.stack.get j) →
    ∃ t, exec .ret later = .next t ∧ t.pc = s.pc + 2 ∧ t.sp = s.sp

/-- R133, R134, R135, R136: the four register skips add 4 to pc when their condition on the full 8 bits
holds, else 2, and change nothing else. -/
def Obligations.SkipsOnRegisterComparison : Prop :=
  ∀ (x y : Reg) (kk : Byte) (s : State),
    (∃ t, exec (.seImm x kk) s = .next t ∧
      t.pc = s.pc + (if (s.getV x).toNat = kk.toNat then 4 else 2) ∧
      Logs .none s t ∧ ChangesOnly [] s t) ∧
    (∃ t, exec (.sneImm x kk) s = .next t ∧
      t.pc = s.pc + (if (s.getV x).toNat = kk.toNat then 2 else 4) ∧
      Logs .none s t ∧ ChangesOnly [] s t) ∧
    (∃ t, exec (.seReg x y) s = .next t ∧
      t.pc = s.pc + (if (s.getV x).toNat = (s.getV y).toNat then 4 else 2) ∧
      Logs .none s t ∧ ChangesOnly [] s t) ∧
    (∃ t, exec (.sneReg x y) s = .next t ∧
      t.pc = s.pc + (if (s.getV x).toNat = (s.getV y).toNat then 2 else 4) ∧
      Logs .none s t ∧ ChangesOnly [] s t)

/-! ## Memory transfer -/

/-- R190, R192: LD I sets I to nnn; LD F sets it to five times the full value of Vx. -/
def Obligations.LoadIndexAndFontPointer : Prop :=
  ∀ (nnn : Nat) (x : Reg) (s : State),
    (nnn < 0x1000 → ∃ t, exec (.ldI nnn) s = .next t ∧ t.i.toNat = nnn ∧ t.pc = s.pc + 2 ∧
      Logs .none s t ∧ ChangesOnly [] { s with i := t.i } t) ∧
    (∃ t, exec (.ldF x) s = .next t ∧ t.i.toNat = 5 * (s.getV x).toNat ∧ t.pc = s.pc + 2 ∧
      Logs .none s t ∧ ChangesOnly [] { s with i := t.i } t)

/-- R191: ADD I adds Vx to I mod 65536 and writes no flag, VF included (the spec's D15, log 15). -/
def Obligations.AddToIndexWrapsAtSixteenBits : Prop :=
  ∀ (x : Reg) (s : State),
    ∃ t, exec (.addI x) s = .next t ∧ t.i.toNat = (s.i.toNat + (s.getV x).toNat) % 65536 ∧
      t.pc = s.pc + 2 ∧ Logs .none s t ∧ ChangesOnly [] { s with i := t.i } t

/-- R193: LD B with I to I + 2 in writable memory stores the hundreds, tens and units digit of Vx there,
in ascending order, and changes no other byte; the addresses are those from the I it leaves unchanged. -/
def Obligations.BcdStoreWritesThreeDigits : Prop :=
  ∀ (x : Reg) (s : State), 0x50 ≤ s.i.toNat → s.i.toNat + 2 < 4096 →
    ∃ t, exec (.ldB x) s = .next t ∧
      (t.mem.read s.indexAddress).toNat = (s.getV x).toNat / 100 ∧
      (t.mem.read (s.indexAddress + 1)).toNat = (s.getV x).toNat / 10 % 10 ∧
      (t.mem.read (s.indexAddress + 2)).toNat = (s.getV x).toNat % 10 ∧
      KeepsMemoryOutside s.indexAddress 3 s t ∧
      t.pc = s.pc + 2 ∧ Logs .none s t ∧ KeepsRegs [] s t ∧ KeepsUnits s t

/-- R194: LD [I],Vx with I to I + x in writable memory stores V0 to Vx there, x included, changes no other
byte and leaves I as it was. -/
def Obligations.BlockStoreWritesVzeroToVx : Prop :=
  ∀ (x : Reg) (s : State), 0x50 ≤ s.i.toNat → s.i.toNat + x.val < 4096 →
    ∃ t, exec (.ldStore x) s = .next t ∧
      (∀ j : Reg, j ≤ x → t.mem.read (s.indexAddress + j.val) = s.getV j) ∧
      KeepsMemoryOutside s.indexAddress (x.val + 1) s t ∧
      t.pc = s.pc + 2 ∧ Logs .none s t ∧ KeepsRegs [] s t ∧ KeepsUnits s t

/-- R195: LD Vx,[I] with I + x in memory loads V0 to Vx, x included, from I on, the font included, and
changes no other register, no byte of memory, and not I. -/
def Obligations.BlockLoadReadsVzeroToVx : Prop :=
  ∀ (x : Reg) (s : State), s.i.toNat + x.val < 4096 →
    ∃ t, exec (.ldLoad x) s = .next t ∧
      (∀ j : Reg, j ≤ x → t.getV j = s.mem.read (s.indexAddress + j.val)) ∧
      (∀ j : Reg, x < j → t.getV j = s.getV j) ∧
      t.pc = s.pc + 2 ∧ Logs .none s t ∧ KeepsMemory s t ∧ KeepsUnits s t

/-- R62, R63, R193, R194, R195, R211, R304: where an access through I leaves memory or a store meets the
font, the instruction faults, and the fault names the lowest failing address (the faults are the spec's
D5 and D6, logs 5 and 6). -/
def Obligations.AccessThroughIndexFaultsAtLowestAddress : Prop :=
  ∀ (x y : Reg) (n : Nat) (s : State),
    (s.i.toNat < 0x50 → exec (.ldB x) s = .fault (.fontOverwrite s.i.toNat) ∧
      exec (.ldStore x) s = .fault (.fontOverwrite s.i.toNat)) ∧
    (0x50 ≤ s.i.toNat → 4096 ≤ s.i.toNat + 2 →
      exec (.ldB x) s = .fault (.undefinedAccess (max s.i.toNat 4096))) ∧
    (0x50 ≤ s.i.toNat → 4096 ≤ s.i.toNat + x.val →
      exec (.ldStore x) s = .fault (.undefinedAccess (max s.i.toNat 4096))) ∧
    (4096 ≤ s.i.toNat + x.val →
      exec (.ldLoad x) s = .fault (.undefinedAccess (max s.i.toNat 4096))) ∧
    (0 < n → n < 16 → 4096 ≤ s.i.toNat + n - 1 →
      exec (.drw x y n) s = .fault (.undefinedAccess (max s.i.toNat 4096)))

/-- R73: what LD [I],Vx or LD B,Vx stores into the word after itself is what the next step fetches, byte by
byte: where the store covers the first or the second byte at the next pc, that byte of the fetched word is
the stored register, or the stored decimal digit of Vx. -/
def Obligations.StoreIsSeenByTheNextFetch : Prop :=
  ∀ (x : Reg) (s t : State),
    (exec (.ldStore x) s = .next t → ∀ j : Reg, j ≤ x →
      (s.pc.toNat + 2 = s.i.toNat + j.val → highByte (fetchWord t) = s.getV j) ∧
      (s.pc.toNat + 3 = s.i.toNat + j.val → lowByte (fetchWord t) = s.getV j)) ∧
    (exec (.ldB x) s = .next t → ∀ j : Nat, j < 3 →
      (s.pc.toNat + 2 = s.i.toNat + j →
        (highByte (fetchWord t)).toNat = (s.getV x).toNat / 10 ^ (2 - j) % 10) ∧
      (s.pc.toNat + 3 = s.i.toNat + j →
        (lowByte (fetchWord t)).toNat = (s.getV x).toNat / 10 ^ (2 - j) % 10))

/-! ## Display -/

/-- R210: CLS makes every cell false, whatever it was, and changes nothing else, VF included. -/
def Obligations.ClearScreenTurnsEveryCellOff : Prop :=
  ∀ s : State, ∃ t, exec .cls s = .next t ∧
    (∀ (c : Fin 64) (r : Fin 32), t.fb.cell c r = false) ∧
    t.pc = s.pc + 2 ∧ Logs .none s t ∧ ChangesOnly [] { s with fb := t.fb } t

/-- R211, R213: a DRW whose n sprite bytes at I are in memory XORs each cell with the sprite's pixel for it,
the origin (Vx mod 64, Vy mod 32) read before VF is written and both axes wrapping; it changes no other
part of the state but VF (the latching is the spec's D9, log 9). -/
def Obligations.DrawXorsTheSpriteIntoTheScreen : Prop :=
  ∀ (x y : Reg) (n : Nat) (s : State), n < 16 → s.i.toNat + n ≤ 4096 →
    ∃ t, exec (.drw x y n) s = .next t ∧
      (∀ (c : Fin 64) (r : Fin 32), t.fb.cell c r =
        (s.fb.cell c r != s.spritePixel (s.getV x).toNat (s.getV y).toNat n c r)) ∧
      t.pc = s.pc + 2 ∧ Logs .none s t ∧ ChangesOnly [VF] { s with fb := t.fb } t

/-- R211: a DRW of no rows reads no memory, whatever I is, leaves the framebuffer as it was and sets VF
to 0. -/
def Obligations.DrawOfNoRowsOnlyClearsVf : Prop :=
  ∀ (x y : Reg) (s : State), ∃ t, exec (.drw x y 0) s = .next t ∧
    t.getV VF = 0 ∧ t.pc = s.pc + 2 ∧ Logs .none s t ∧ ChangesOnly [VF] s t

/-- R212: VF after a DRW is 1 when at least one cell that was true before is false after it, else 0. -/
def Obligations.CollisionFlagIsACellTurnedOff : Prop :=
  ∀ (x y : Reg) (n : Nat) (s t : State), n < 16 → exec (.drw x y n) s = .next t →
    ((∃ c r, s.fb.cell c r = true ∧ t.fb.cell c r = false) → t.getV VF = 1) ∧
    ((¬ ∃ c r, s.fb.cell c r = true ∧ t.fb.cell c r = false) → t.getV VF = 0)

/-! ## Timers -/

/-- R230, R231, R232: LD Vx,DT reads the delay timer; LD DT,Vx and LD ST,Vx each set their timer and
leave the other as it was. No timer ticks inside an instruction. -/
def Obligations.TimerInstructionsMoveTheirTimer : Prop :=
  ∀ (x : Reg) (s : State),
    (∃ t, exec (.ldVxDt x) s = .next t ∧ t.getV x = s.dt ∧ t.pc = s.pc + 2 ∧ Logs .none s t ∧
      ChangesOnly [x] s t) ∧
    (∃ t, exec (.ldDt x) s = .next t ∧ t.dt = s.getV x ∧ t.pc = s.pc + 2 ∧ Logs .none s t ∧
      ChangesOnly [] { s with dt := t.dt } t) ∧
    (∃ t, exec (.ldSt x) s = .next t ∧ t.st = s.getV x ∧ t.pc = s.pc + 2 ∧ Logs .none s t ∧
      ChangesOnly [] { s with st := t.st } t)

/-- R233: n ticks take each timer down by n, each on its own and never below 0, and change nothing else. -/
def Obligations.TicksCountEachTimerDownToZero : Prop :=
  ∀ (n : Nat) (s : State),
    hostRun (List.replicate n .tickTimers) s =
      { s with dt := BitVec.ofNat 8 (s.dt.toNat - n), st := BitVec.ofNat 8 (s.st.toNat - n) }

/-- R234, R232: `isBeeping` answers ST > 0 and changes nothing; after LD ST,Vx it answers Vx > 0. -/
def Obligations.BeepingIsSoundTimerAboveZero : Prop :=
  ∀ s : State, (∃ b, hostCall .isBeeping s = (s, .beeping b) ∧ (b = true ↔ s.st ≠ 0)) ∧
    (∀ (x : Reg) (t : State), exec (.ldSt x) s = .next t → (isBeeping t = true ↔ s.getV x ≠ 0))

/-- R37: no instruction reads ST. Two states that differ only in ST step alike: both go on, to states that
are equal up to ST itself, or both stop with the same fault. -/
def Obligations.SoundTimerDoesNotInfluenceAStep : Prop :=
  ∀ (s : State) (b : Byte),
    (∀ t, step s = .next t → ∃ t', step { s with st := b } = .next t' ∧ { t' with st := t.st } = t) ∧
    (∀ f, step s = .fault f → step { s with st := b } = .fault f)

/-! ## Random numbers -/

/-- R251, R250: RND sets Vx to the drawn byte AND kk, so that every bit outside kk is 0 and kk = 0 gives 0
whatever the generator; it advances the generator by one draw. The byte itself is free (log 14). -/
def Obligations.RandomByteIsMaskedByKk : Prop :=
  ∀ (x : Reg) (kk : Byte) (s : State), ∃ t, exec (.rnd x kk) s = .next t ∧
    t.getV x = Config.draw8 s.rng.seed s.rng.drawn &&& kk ∧
    (∀ b, kk.getLsbD b = false → (t.getV x).getLsbD b = false) ∧ (kk = 0 → t.getV x = 0) ∧
    t.rng = { s.rng with drawn := s.rng.drawn + 1 } ∧
    t.pc = s.pc + 2 ∧ Logs .none s t ∧ ChangesOnly [x] { s with rng := t.rng } t

/-! ## Input -/

/-- R260, R261: with V[x] = k below 16, SKP skips when Key[k] is pressed and SKNP when it is not, and
neither changes anything else; with V[x] of 16 or more both fault (the spec's D7, log 7). -/
def Obligations.KeySkipsTestTheNamedKey : Prop :=
  ∀ (x : Reg) (s : State),
    (∀ k : KeyIdx, (s.getV x).toNat = k.val →
      (∃ t, exec (.skp x) s = .next t ∧ t.pc = s.pc + (if s.key.get k = true then 4 else 2) ∧
        Logs .none s t ∧ ChangesOnly [] s t) ∧
      (∃ t, exec (.sknp x) s = .next t ∧ t.pc = s.pc + (if s.key.get k = true then 2 else 4) ∧
        Logs .none s t ∧ ChangesOnly [] s t)) ∧
    (16 ≤ (s.getV x).toNat → exec (.skp x) s = .fault (.keyIndexOutOfRange (s.getV x)) ∧
      exec (.sknp x) s = .fault (.keyIndexOutOfRange (s.getV x)))

/-- R262: LD Vx,K with a key pressed writes LastKey as the host gave it and advances; with none pressed it
writes nothing and leaves pc, with no diagnostic (level test and unchecked LastKey: the spec's D19,
log 19). -/
def Obligations.WaitForKeyPollsTheSnapshot : Prop :=
  ∀ (x : Reg) (s : State),
    ((∃ k, s.key.get k = true) → ∃ t, exec (.ldVxK x) s = .next t ∧
      (t.getV x).toNat = s.lastKey.val ∧ t.pc = s.pc + 2 ∧ Logs .none s t ∧ ChangesOnly [x] s t) ∧
    ((∀ k, s.key.get k = false) → ∃ t, exec (.ldVxK x) s = .next t ∧
      t.pc = s.pc ∧ Logs .none s t ∧ ChangesOnly [] s t)

/-- R263, R262: `setKeyState` changes nothing but the snapshot, at any state. A waiting program goes on at
the first cycle after the host reports a pressed key and reads the reported LastKey, the cycle's
diagnostic being None. That Vx receives LastKey as reported, although only some other key need be pressed,
is the spec's own decision D19 (log 19). -/
def Obligations.ReportedKeyEndsTheWait : Prop :=
  ∀ (s : State) (pressed : Vector Bool 16) (last : KeyIdx),
    hostCall (.setKeyState pressed last) s = ({ s with key := pressed, lastKey := last }, .done) ∧
    ∀ (x : Reg) (k : KeyIdx), s.fault = none → s.pc.toNat ≤ 0xFFE →
      decode (fetchWord s) = .instr (.ldVxK x) → pressed.get k = true →
      ∃ t, hostRun [.setKeyState pressed last, .advanceCycle] s = t ∧
        (t.getV x).toNat = last.val ∧ t.pc = s.pc + 2 ∧ t.key = pressed ∧ t.lastKey = last ∧
        Logs .none s t ∧ ChangesOnly [x] { s with key := pressed, lastKey := last } t

/-! ## Host operations -/

/-- R281, R302: `loadProgram` copies at most 3584 bytes to 0x200 on and changes no other byte and no other
component; a longer image is ProgramTooLarge and changes nothing. A second call means the same (the
spec's D13, log 13). -/
def Obligations.LoadProgramCopiesOrRejects : Prop :=
  ∀ (bytes : List Byte) (s : State),
    (bytes.length ≤ 3584 → ∃ t, hostCall (.loadProgram bytes) s = (t, .ok) ∧
      (∀ (j : Nat) (h : j < bytes.length), t.mem.read (0x200 + j) = bytes[j]) ∧
      KeepsMemoryOutside 0x200 bytes.length s t ∧ t.mem.font = s.mem.font ∧ { t with mem := s.mem } = s) ∧
    (bytes.length > 3584 → hostCall (.loadProgram bytes) s = (s, .programTooLarge))

/-- R46, R340, R341: `reset` from any state zeroes the registers, memory outside the font, stack, timers,
framebuffer and keys, installs the instance's FONT (R45), empties DiagLog and clears Fault. It sets pc to
0x200, which is the spec's own decision D3 (log 3), and seeds the generator afresh (R252): from the seed
supplied, else from the next draw of the entropy source. The form that takes in `rng`, and the count of
entropy draws, are the model's choice (log 14). -/
def Obligations.ResetInitialisesEveryComponent : Prop :=
  ∀ (seed : Option Nat) (s : State), ∃ t, hostCall (.reset seed) s = (t, .done) ∧
    (∀ r, t.getV r = 0) ∧ t.i = 0 ∧ (∀ j, t.stack.get j = 0) ∧ t.sp = 0 ∧ t.dt = 0 ∧ t.st = 0 ∧
    (∀ c r, t.fb.cell c r = false) ∧ (∀ k, t.key.get k = false) ∧ t.lastKey = 0 ∧
    (∀ a, 0x50 ≤ a → t.mem.read a = 0) ∧
    (∀ (a : Nat) (h : a < 80), t.mem.read a = s.mem.font[a]) ∧ t.mem.font = s.mem.font ∧
    t.pc = 0x200 ∧
    (∀ k, seed = some k →
      t.rng = { seed := .supplied k, drawn := 0, entropyUsed := s.rng.entropyUsed }) ∧
    (seed = none →
      t.rng = { seed := .entropy s.rng.entropyUsed, drawn := 0, entropyUsed := s.rng.entropyUsed + 1 }) ∧
    t.diagLog = [] ∧ t.fault = none

/-- R342: after `reset` the first cycle fetches at 0x200 (the spec's D3, log 3). -/
def Obligations.FirstFetchAfterResetIsAtProgramBase : Prop :=
  ∀ (seed : Option Nat) (s : State) (hi lo : Byte) (rest : List Byte), rest.length ≤ 3582 →
    (hostRun [.reset seed, .loadProgram (hi :: lo :: rest)] s).pc = 0x200 ∧
    fetchWord (hostRun [.reset seed, .loadProgram (hi :: lo :: rest)] s) = wordOfBytes hi lo

/-- R341: two resets in a row leave the same state as one, up to the generator. Two that end with the same
supplied seed leave the same next byte (the form of the generator's state is the model's, log 14). -/
def Obligations.ResetIsIdempotentUpToTheSeed : Prop :=
  ∀ (a b : Option Nat) (s : State),
    { hostRun [.reset a, .reset b] s with rng := (hostRun [.reset b] s).rng } = hostRun [.reset b] s ∧
    ∀ (seed : Nat) (u : State),
      (hostRun [.reset (some seed)] s).draw8 = (hostRun [.reset (some seed)] u).draw8

/-- R282: `framebufferView` gives the grid and changes nothing; after any host operation but `reset` and
`advanceCycle` the grid is the same. -/
def Obligations.ViewGivesTheGridUnchanged : Prop :=
  ∀ s : State, hostCall .framebufferView s = (s, .grid s.fb) ∧
    ∀ op, (∀ seed, op ≠ .reset seed) → op ≠ .advanceCycle → (hostCall op s).1.fb = s.fb

/-! ## Whole-machine rules -/

/-- R60, R33, R38, R37: which instructions write memory, I, the framebuffer and the timers: every other
instruction that completes leaves them as they were. -/
def Obligations.MemoryIndexScreenAndTimersHaveTheirWriters : Prop :=
  ∀ (i : Instr) (s t : State), exec i s = .next t →
    ((∀ x, i ≠ .ldB x ∧ i ≠ .ldStore x) → KeepsMemory s t) ∧
    ((∀ x nnn, i ≠ .ldI nnn ∧ i ≠ .addI x ∧ i ≠ .ldF x) → t.i = s.i) ∧
    ((∀ x y n, i ≠ .cls ∧ i ≠ .drw x y n) → t.fb = s.fb) ∧
    ((∀ x, i ≠ .ldDt x) → t.dt = s.dt) ∧ ((∀ x, i ≠ .ldSt x) → t.st = s.st)

/-- R36, R39, R40: only CALL and RET write the stack and SP, only RND changes the generator, and no
instruction writes the key state. -/
def Obligations.StackKeysAndGeneratorHaveTheirWriters : Prop :=
  ∀ (i : Instr) (s t : State), exec i s = .next t →
    ((∀ nnn, i ≠ .call nnn ∧ i ≠ .ret) → t.stack = s.stack ∧ t.sp = s.sp) ∧
    ((∀ x kk, i ≠ .rnd x kk) → t.rng = s.rng) ∧
    t.key = s.key ∧ t.lastKey = s.lastKey ∧ t.fault = s.fault

/-- R32: no instruction but ADD Vx,Vy, SUB, SHR, SUBN, SHL and DRW writes VF, except as its named
destination; a block load names every register up to x. -/
def Obligations.OnlySixInstructionsWriteVfAsAFlag : Prop :=
  ∀ (i : Instr) (s t : State), exec i s = .next t → t.getV VF ≠ s.getV VF →
    (∃ x y n, i ∈ [.addReg x y, .subReg x y, .shr x, .subnReg x y, .shl x, .drw x y n]) ∨
    (∃ y kk, i ∈ [.ldImm VF kk, .addImm VF kk, .ldReg VF y, .orReg VF y, .andReg VF y, .xorReg VF y,
      .rnd VF kk, .ldVxDt VF, .ldVxK VF, .ldLoad VF])

/-- R34: what an instruction may leave in pc: pc + 2, pc + 4 by a skip, pc by a wait with no key, the
target of a jump or call, or the popped return address + 2. -/
def Obligations.PcIsWrittenInOneOfTheListedForms : Prop :=
  ∀ (i : Instr) (s t : State), exec i s = .next t →
    t.pc = s.pc + 2 ∨
    (t.pc = s.pc + 4 ∧ ∃ x y kk, i ∈ [.seImm x kk, .sneImm x kk, .seReg x y, .sneReg x y, .skp x, .sknp x]) ∨
    (t.pc = s.pc ∧ s.anyKey = false ∧ ∃ x, i = .ldVxK x) ∨
    (∃ nnn, (i = .jp nnn ∨ i = .call nnn) ∧ t.pc = BitVec.ofNat 16 nnn) ∨
    (∃ nnn, i = .jpV0 nnn ∧ t.pc = BitVec.ofNat 16 (nnn + (s.getV 0).toNat)) ∨
    (i = .ret ∧ ∃ j : Fin 16, s.sp.val = j.val + 1 ∧ t.pc = s.stack.get j + 2)

/-- R354: with no key pressed and no timer running, a jump to its own address and a wait for a key are
ends: pc does not change however many cycles follow (the definition is the spec's D22, log 22). -/
def Obligations.SelfJumpAndIdleWaitAreEnds : Prop :=
  ∀ (s : State) (i : Instr), s.fault = none → s.pc.toNat ≤ 0xFFE → s.Quiet →
    decode (fetchWord s) = .instr i → (i = .jp s.pc.toNat ∨ ∃ x, i = .ldVxK x) → s.Ended
end

