-- ==== Sys2Proof/Laws/Decode.lean ====
section
/-! SUPPORT. The fields of an encoded word, format by format, and the two bytes of a word. -/

namespace Sys2Proof

/-- A word is the big-endian pair of its bytes. -/
@[simp] theorem wordOfBytes_bytes (w : Word) : wordOfBytes (highByte w) (lowByte w) = w := by
  refine BitVec.eq_of_getLsbD_eq fun i hi => ?_
  simp only [wordOfBytes, highByte, lowByte, BitVec.getLsbD_append, BitVec.getLsbD_extractLsb']
  interval_cases i <;> simp

@[simp] theorem highByte_wordOfBytes (hi lo : Byte) : highByte (wordOfBytes hi lo) = hi := by
  refine BitVec.eq_of_getLsbD_eq fun i h => ?_
  simp only [wordOfBytes, highByte, BitVec.getLsbD_append, BitVec.getLsbD_extractLsb']
  interval_cases i <;> simp

@[simp] theorem lowByte_wordOfBytes (hi lo : Byte) : lowByte (wordOfBytes hi lo) = lo := by
  refine BitVec.eq_of_getLsbD_eq fun i h => ?_
  simp only [wordOfBytes, lowByte, BitVec.getLsbD_append, BitVec.getLsbD_extractLsb']
  interval_cases i <;> simp

theorem wordOfBytes_toNat (hi lo : Byte) : (wordOfBytes hi lo).toNat = 256 * hi.toNat + lo.toNat := by
  have h := lo.isLt
  rw [wordOfBytes, BitVec.toNat_append, ← Nat.shiftLeft_add_eq_or_of_lt h, Nat.shiftLeft_eq]
  omega

/-! ## Format A -/

@[simp] theorem fieldOp_formatA (op : BitVec 4) (nnn : Nat) : fieldOp (formatA op nnn) = op := by
  unfold formatA
  generalize BitVec.ofNat 12 nnn = a
  refine BitVec.eq_of_getLsbD_eq fun i h => ?_
  simp only [fieldOp, BitVec.getLsbD_append, BitVec.getLsbD_extractLsb']
  interval_cases i <;> simp

@[simp] theorem fieldNnn_formatA (op : BitVec 4) (nnn : Nat) :
    fieldNnn (formatA op nnn) = BitVec.ofNat 12 nnn := by
  unfold formatA
  generalize BitVec.ofNat 12 nnn = a
  refine BitVec.eq_of_getLsbD_eq fun i h => ?_
  simp only [fieldNnn, BitVec.getLsbD_append, BitVec.getLsbD_extractLsb']
  interval_cases i <;> simp

/-! ## Formats XK and XS -/

@[simp] theorem fieldOp_formatXK (op : BitVec 4) (x : Reg) (kk : Byte) :
    fieldOp (formatXK op x kk) = op := by
  unfold formatXK
  generalize regBits x = a
  refine BitVec.eq_of_getLsbD_eq fun i h => ?_
  simp only [fieldOp, BitVec.getLsbD_append, BitVec.getLsbD_extractLsb']
  interval_cases i <;> simp

@[simp] theorem fieldX_formatXK (op : BitVec 4) (x : Reg) (kk : Byte) :
    fieldX (formatXK op x kk) = x := by
  have h : (formatXK op x kk).extractLsb' 8 4 = regBits x := by
    unfold formatXK
    generalize regBits x = a
    refine BitVec.eq_of_getLsbD_eq fun i h => ?_
    simp only [BitVec.getLsbD_append, BitVec.getLsbD_extractLsb']
    interval_cases i <;> simp
  rw [fieldX, h]; rfl

@[simp] theorem fieldKk_formatXK (op : BitVec 4) (x : Reg) (kk : Byte) :
    fieldKk (formatXK op x kk) = kk := by
  unfold formatXK
  generalize regBits x = a
  refine BitVec.eq_of_getLsbD_eq fun i h => ?_
  simp only [fieldKk, BitVec.getLsbD_append, BitVec.getLsbD_extractLsb']
  interval_cases i <;> simp

/-! ## Formats XY, XYS and XYN -/

@[simp] theorem fieldOp_formatXYN (op : BitVec 4) (x y : Reg) (n : BitVec 4) :
    fieldOp (formatXYN op x y n) = op := by
  unfold formatXYN
  generalize regBits x = a
  generalize regBits y = b
  refine BitVec.eq_of_getLsbD_eq fun i h => ?_
  simp only [fieldOp, BitVec.getLsbD_append, BitVec.getLsbD_extractLsb']
  interval_cases i <;> simp

@[simp] theorem fieldX_formatXYN (op : BitVec 4) (x y : Reg) (n : BitVec 4) :
    fieldX (formatXYN op x y n) = x := by
  have h : (formatXYN op x y n).extractLsb' 8 4 = regBits x := by
    unfold formatXYN
    generalize regBits x = a
    generalize regBits y = b
    refine BitVec.eq_of_getLsbD_eq fun i h => ?_
    simp only [BitVec.getLsbD_append, BitVec.getLsbD_extractLsb']
    interval_cases i <;> simp
  rw [fieldX, h]; rfl

@[simp] theorem fieldY_formatXYN (op : BitVec 4) (x y : Reg) (n : BitVec 4) :
    fieldY (formatXYN op x y n) = y := by
  have h : (formatXYN op x y n).extractLsb' 4 4 = regBits y := by
    unfold formatXYN
    generalize regBits x = a
    generalize regBits y = b
    refine BitVec.eq_of_getLsbD_eq fun i h => ?_
    simp only [BitVec.getLsbD_append, BitVec.getLsbD_extractLsb']
    interval_cases i <;> simp
  rw [fieldY, h]; rfl

@[simp] theorem fieldN_formatXYN (op : BitVec 4) (x y : Reg) (n : BitVec 4) :
    fieldN (formatXYN op x y n) = n := by
  unfold formatXYN
  generalize regBits x = a
  generalize regBits y = b
  refine BitVec.eq_of_getLsbD_eq fun i h => ?_
  simp only [fieldN, BitVec.getLsbD_append, BitVec.getLsbD_extractLsb']
  interval_cases i <;> simp

end Sys2Proof
end

