-- ==== Sys2Proof/Laws/Display.lean ====
section
/-! SUPPORT. The laws of the framebuffer: a cell after a write, and what one toggled pixel changes. -/

namespace Sys2Proof.Machine

@[simp] theorem Framebuffer.cell_setCell (fb : Framebuffer) (c c' : Fin 64) (r r' : Fin 32) (b : Bool) :
    (fb.setCell c r b).cell c' r' = if c' = c ∧ r' = r then b else fb.cell c' r' := by
  by_cases hr : r' = r
  · subst hr
    by_cases hc : c' = c
    · subst hc; simp [Framebuffer.cell, Framebuffer.setCell, Vector.get_eq_getElem]
    · simp [Framebuffer.cell, Framebuffer.setCell, Vector.get_eq_getElem, hc,
        Fin.val_ne_of_ne (Ne.symm hc)]
  · simp [Framebuffer.cell, Framebuffer.setCell, Vector.get_eq_getElem, hr,
      Fin.val_ne_of_ne (Ne.symm hr)]

@[simp] theorem Framebuffer.cell_blank (c : Fin 64) (r : Fin 32) : Framebuffer.blank.cell c r = false := by
  simp [Framebuffer.cell, Framebuffer.blank, Vector.get_eq_getElem]

/-- One toggled pixel inverts its cell, taken mod 64 and mod 32, and no other. -/
theorem Drawing.toggle_cell (d : Drawing) (col row : Nat) (c : Fin 64) (r : Fin 32) :
    (d.toggle col row).1.cell c r =
      (d.1.cell c r != (decide (c.val = col % 64) && decide (r.val = row % 32))) := by
  simp only [Drawing.toggle, Framebuffer.cell_setCell, ← Bool.decide_and]
  by_cases h : c = Fin.ofNat 64 col ∧ r = Fin.ofNat 32 row
  · rw [if_pos h, decide_eq_true (by rw [h.1, h.2]; simp), h.1, h.2]
    simp
  · have h' : ¬ (c.val = col % 64 ∧ r.val = row % 32) := fun ⟨h1, h2⟩ =>
      h ⟨Fin.ext (by simpa using h1), Fin.ext (by simpa using h2)⟩
    rw [if_neg h, decide_eq_false h']
    simp

/-- One toggled pixel notes a collision when its cell was on. -/
theorem Drawing.toggle_collision (d : Drawing) (col row : Nat) :
    (d.toggle col row).2 = (d.2 || d.1.cell (Fin.ofNat 64 col) (Fin.ofNat 32 row)) := rfl

/-- The first `k` pixels of a sprite row invert exactly the cells of its line whose distance from the
leftmost column, mod 64, is below `k` and whose bit is set. -/
theorem Drawing.row_cell_prefix (d : Drawing) (b : Byte) (ox row k : Nat) (hk : k ≤ 8)
    (c : Fin 64) (r : Fin 32) :
    ((List.range k).foldl
        (fun d col => if b.getLsbD (7 - col) then d.toggle (ox + col) row else d) d).1.cell c r =
      (d.1.cell c r != (decide ((c.val + 64 - ox % 64) % 64 < k) && decide (r.val = row % 32) &&
        b.getLsbD (7 - (c.val + 64 - ox % 64) % 64))) := by
  induction k with
  | zero => simp
  | succ k ih =>
    have key : c.val = (ox + k) % 64 ↔ (c.val + 64 - ox % 64) % 64 = k := by
      have := c.isLt; omega
    have ih := ih (by omega)
    revert key ih
    generalize (c.val + 64 - ox % 64) % 64 = dc
    intro key ih
    rw [List.range_succ, List.foldl_append, List.foldl_cons, List.foldl_nil]
    have split : decide (dc < k + 1) = (decide (dc < k) || decide (dc = k)) := by
      rw [← Bool.decide_or]; exact decide_eq_decide.2 (by omega)
    rcases eq_or_ne dc k with rfl | hne
    · by_cases hb : b.getLsbD (7 - dc) = true
      · rw [if_pos hb, Drawing.toggle_cell, ih, decide_eq_true (key.2 rfl)]; simp [hb]
      · rw [if_neg hb, ih]; simp [hb]
    · have h : ¬ c.val = (ox + k) % 64 := fun h => hne (key.1 h)
      rw [split, decide_eq_false hne, Bool.or_false]
      by_cases hb : b.getLsbD (7 - k) = true
      · rw [if_pos hb, Drawing.toggle_cell, ih, decide_eq_false h]; simp
      · rw [if_neg hb, ih]

/-- A sprite row inverts exactly the cells of its line, at most 7 columns from its leftmost column mod 64,
whose bit is set (R211, R213). -/
theorem Drawing.row_cell (d : Drawing) (b : Byte) (ox row : Nat) (c : Fin 64) (r : Fin 32) :
    (d.row b ox row).1.cell c r =
      (d.1.cell c r != (decide ((c.val + 64 - ox % 64) % 64 < 8) && decide (r.val = row % 32) &&
        b.getLsbD (7 - (c.val + 64 - ox % 64) % 64))) :=
  d.row_cell_prefix b ox row 8 le_rfl c r

/-- A sprite of at most 32 rows inverts exactly the cells on which one of its set pixels falls (R211). -/
theorem Drawing.sprite_cell (d : Drawing) (m : Memory) (a n ox oy : Nat) (hn : n ≤ 32)
    (c : Fin 64) (r : Fin 32) :
    (d.sprite m a n ox oy).1.cell c r =
      (d.1.cell c r != (decide ((r.val + 32 - oy % 32) % 32 < n) &&
        decide ((c.val + 64 - ox % 64) % 64 < 8) &&
        (m.read (a + (r.val + 32 - oy % 32) % 32)).getLsbD (7 - (c.val + 64 - ox % 64) % 64))) := by
  unfold Drawing.sprite
  induction n with
  | zero => simp
  | succ n ih =>
    have key : r.val = (oy + n) % 32 ↔ (r.val + 32 - oy % 32) % 32 = n := by
      have := r.isLt; omega
    have ih := ih (by omega)
    revert key ih
    generalize (r.val + 32 - oy % 32) % 32 = dr
    intro key ih
    rw [List.range_succ, List.foldl_append, List.foldl_cons, List.foldl_nil, Drawing.row_cell, ih]
    have split : decide (dr < n + 1) = (decide (dr < n) || decide (dr = n)) := by
      rw [← Bool.decide_or]; exact decide_eq_decide.2 (by omega)
    rcases eq_or_ne dr n with rfl | hne
    · rw [decide_eq_true (key.2 rfl)]; simp
    · rw [split, decide_eq_false hne, decide_eq_false fun h => hne (key.1 h)]; simp

end Sys2Proof.Machine
end

