-- ==== Sys2Proof/Laws/Memory.lean ====
section
/-! SUPPORT. The laws of memory: a read after a write, a write that leaves every other byte alone, runs of
bytes, and that every operation keeps the canonical form; and what the range checks find. -/

namespace Sys2Proof.Machine

/-! ## Cells -/

theorem Cells.find_insert (a : Nat) (v : Byte) (cs : Cells) (b : Nat) (h : ∀ c ∈ cs, c.1 ≠ a) :
    (Cells.insert a v cs).find b = if b = a then some v else cs.find b := by
  induction cs with
  | nil => by_cases hb : b = a <;> simp [Cells.insert, Cells.find, hb, Ne.symm]
  | cons c cs ih =>
    obtain ⟨k, u⟩ := c
    have hk : k ≠ a := h (k, u) (by simp)
    have ih' := ih fun c hc => h c (by simp [hc])
    by_cases hlt : a < k
    · by_cases hb : b = a
      · simp [Cells.insert, Cells.find, hlt, hb]
      · simp [Cells.insert, Cells.find, hlt, hb, Ne.symm hb]
    · by_cases hkb : k = b
      · subst hkb; simp [Cells.insert, Cells.find, hlt, hk]
      · simp [Cells.insert, Cells.find, hlt, hkb, ih']

theorem Cells.forget_ne (cs : Cells) (a : Nat) : ∀ c ∈ cs.forget a, c.1 ≠ a := by
  intro c hc
  simpa [Cells.forget] using (List.mem_filter.1 hc).2

theorem Cells.find_forget (cs : Cells) (a b : Nat) :
    (cs.forget a).find b = if b = a then none else cs.find b := by
  induction cs with
  | nil => by_cases hb : b = a <;> simp [Cells.forget, Cells.find, hb]
  | cons c cs ih =>
    obtain ⟨k, u⟩ := c
    unfold Cells.forget at ih ⊢
    by_cases hk : k = a
    · subst hk
      by_cases hb : b = k
      · subst hb; simpa using ih
      · simpa [Cells.find, hb, Ne.symm hb] using ih
    · by_cases hkb : k = b
      · subst hkb; simp [Cells.find, hk]
      · simpa [Cells.find, hk, hkb] using ih

theorem Cells.mem_insert {a : Nat} {v : Byte} {cs : Cells} {c : Host.Cell} :
    c ∈ Cells.insert a v cs ↔ c = (a, v) ∨ c ∈ cs := by
  induction cs with
  | nil => simp [Cells.insert]
  | cons d cs ih =>
    obtain ⟨k, u⟩ := d
    simp only [Cells.insert]
    split
    · simp
    · simp [ih]; tauto

theorem Cells.insert_sorted {cs : Cells} (h : cs.Pairwise fun c d => c.1 < d.1) {a : Nat} {v : Byte}
    (hne : ∀ c ∈ cs, c.1 ≠ a) : (Cells.insert a v cs).Pairwise fun c d => c.1 < d.1 := by
  induction cs with
  | nil => simp [Cells.insert]
  | cons d cs ih =>
    obtain ⟨k, u⟩ := d
    have hp := List.pairwise_cons.1 h
    have hk : k ≠ a := hne (k, u) (by simp)
    simp only [Cells.insert]
    split
    · next hlt =>
      refine List.pairwise_cons.2 ⟨fun c hc => ?_, h⟩
      rcases List.mem_cons.1 hc with rfl | hc
      · exact hlt
      · exact lt_trans hlt (hp.1 c hc)
    · next hlt =>
      refine List.pairwise_cons.2 ⟨fun c hc => ?_, ih hp.2 fun c hc => hne c (by simp [hc])⟩
      rcases Cells.mem_insert.1 hc with rfl | hc
      · simp only; omega
      · exact hp.1 c hc

theorem Cells.find_of_mem {cs : Cells} (h : cs.Pairwise fun c d => c.1 < d.1) {c : Host.Cell}
    (hc : c ∈ cs) : cs.find c.1 = some c.2 := by
  induction cs with
  | nil => simp at hc
  | cons d cs ih =>
    obtain ⟨k, u⟩ := d
    have hp := List.pairwise_cons.1 h
    rcases List.mem_cons.1 hc with rfl | hc
    · simp [Cells.find]
    · have : k < c.1 := hp.1 c hc
      rw [Cells.find, if_neg (by omega), ih hp.2 hc]

/-! ## No write changes FONT, nor what an unlisted address reads as -/

@[simp] theorem Memory.write_font (m : Memory) (a : Nat) (v : Byte) : (m.write a v).font = m.font := rfl

@[simp] theorem Memory.writeBytes_font (bytes : List Byte) (m : Memory) (a : Nat) :
    (m.writeBytes a bytes).font = m.font := by
  induction bytes generalizing m a with
  | nil => rfl
  | cons v vs ih => exact ih (m.write a v) (a + 1)

@[simp] theorem Memory.write_unlisted (m : Memory) (a : Nat) (v : Byte) (b : Nat) :
    (m.write a v).unlisted b = m.unlisted b := rfl

@[simp] theorem Memory.writeBytes_unlisted (bytes : List Byte) (m : Memory) (a b : Nat) :
    (m.writeBytes a bytes).unlisted b = m.unlisted b := by
  simp [Memory.unlisted]

/-! ## Reading after a write -/

/-- A byte reads as the last value written to it, and a write leaves every other byte alone. -/
@[simp] theorem Memory.read_write (m : Memory) (a b : Nat) (v : Byte) :
    (m.write a v).read b = if b = a then v else m.read b := by
  unfold Memory.read
  rw [Memory.write_unlisted]
  unfold Memory.write
  dsimp only
  split
  · next h => rw [Cells.find_forget, h]; split <;> simp_all
  · rw [Cells.find_insert a v _ b (m.cells.forget_ne a), Cells.find_forget]
    split <;> simp_all

/-- Reading after a run of writes: inside the run the byte written, outside it the old byte. -/
theorem Memory.read_writeBytes (bytes : List Byte) (m : Memory) (a b : Nat) :
    (m.writeBytes a bytes).read b =
      if h : a ≤ b ∧ b - a < bytes.length then bytes[b - a]'h.2 else m.read b := by
  induction bytes generalizing m a with
  | nil => simp [Memory.writeBytes]
  | cons v vs ih =>
    rw [Memory.writeBytes, ih]
    rcases lt_trichotomy b a with hlt | rfl | hgt
    · have : ¬ a + 1 ≤ b := by omega
      have h2 : ¬ a ≤ b := by omega
      simp [this, h2, Nat.ne_of_lt hlt]
    · simp
    · obtain ⟨d, rfl⟩ : ∃ d, b = a + 1 + d := ⟨b - (a + 1), by omega⟩
      have e : a + 1 + d - a = d + 1 := by omega
      simp [e, show a ≤ a + 1 + d by omega, show ¬ a + 1 + d = a by omega]

theorem Memory.read_writeBytes_outside (bytes : List Byte) (m : Memory) (a b : Nat)
    (h : b < a ∨ a + bytes.length ≤ b) : (m.writeBytes a bytes).read b = m.read b := by
  rw [Memory.read_writeBytes, dif_neg (by omega)]

theorem Memory.read_writeBytes_inside (bytes : List Byte) (m : Memory) (a j : Nat)
    (h : j < bytes.length) : (m.writeBytes a bytes).read (a + j) = bytes[j] := by
  rw [Memory.read_writeBytes, dif_pos (by omega)]
  simp

/-! ## The canonical form -/

/-- A memory that lists nothing is in canonical form, whatever its FONT. -/
@[simp] theorem Memory.wf_nil (font : FontTable) : Memory.wf { font := font, cells := [] } := by
  simp [Memory.wf]

/-- Writing an existing address keeps the canonical form. -/
theorem Memory.write_wf {m : Memory} (h : m.wf) {a : Nat} (ha : a < Config.memSize) (v : Byte) :
    (m.write a v).wf := by
  have hs : (m.cells.forget a).Pairwise fun c d => c.1 < d.1 := h.1.filter _
  have hc : ∀ c ∈ m.cells.forget a, c.1 < Config.memSize ∧ c.2 ≠ m.unlisted c.1 := fun c hc =>
    h.2 c (List.mem_filter.1 hc).1
  unfold Memory.wf
  simp only [Memory.write_unlisted]
  unfold Memory.write
  dsimp only
  split
  · exact ⟨hs, hc⟩
  · refine ⟨Cells.insert_sorted hs (m.cells.forget_ne a), fun c hmem => ?_⟩
    rcases Cells.mem_insert.1 hmem with rfl | hmem
    · exact ⟨ha, ‹_›⟩
    · exact hc c hmem

theorem Memory.writeBytes_wf (bytes : List Byte) {m : Memory} (h : m.wf) {a : Nat}
    (ha : a + bytes.length ≤ Config.memSize) : (m.writeBytes a bytes).wf := by
  induction bytes generalizing m a with
  | nil => exact h
  | cons v vs ih =>
    simp only [List.length_cons] at ha
    exact ih (Memory.write_wf h (by omega) v) (by omega)

/-- A listed cell is what its address reads as. -/
theorem Memory.read_of_mem {m : Memory} (h : m.wf) {c : Host.Cell} (hc : c ∈ m.cells) :
    m.read c.1 = c.2 := by
  rw [Memory.read, Cells.find_of_mem h.1 hc, Option.getD_some]

/-! ## The range checks -/

theorem readFault_eq_none {a : Nat} : readFault a = none ↔ a < 4096 := by
  simp [readFault]

theorem writeFault_eq_none {a : Nat} : writeFault a = none ↔ 0x50 ≤ a ∧ a < 4096 := by
  unfold writeFault readFault Config.fontLimit Config.memSize
  split <;> simp <;> omega

/-- A run of addresses passes its checks exactly when every address does. -/
theorem firstFault_eq_none {check : Nat → Option Fault} {a n : Nat} :
    firstFault check a n = none ↔ ∀ j, j < n → check (a + j) = none := by
  induction n generalizing a with
  | zero => simp [firstFault]
  | succ n ih =>
    simp only [firstFault]
    cases h : check a with
    | some f =>
      simp only [reduceCtorEq, false_iff, not_forall]
      exact ⟨0, by omega, by simp [h]⟩
    | none =>
      rw [ih]
      constructor
      · intro hall j hj
        cases j with
        | zero => simpa using h
        | succ j => have := hall j (by omega); rwa [show a + 1 + j = a + (j + 1) by omega] at this
      · intro hall j hj
        have := hall (j + 1) (by omega)
        rwa [show a + (j + 1) = a + 1 + j by omega] at this

/-- The fault a run reports is that of the first address that fails. -/
theorem firstFault_eq_some {check : Nat → Option Fault} {a n : Nat} {f : Fault} :
    firstFault check a n = some f ↔
      ∃ j, j < n ∧ check (a + j) = some f ∧ ∀ k, k < j → check (a + k) = none := by
  induction n generalizing a with
  | zero => simp [firstFault]
  | succ n ih =>
    simp only [firstFault]
    cases h : check a with
    | some g =>
      constructor
      · rintro ⟨⟩; exact ⟨0, by omega, by simp [h], by omega⟩
      · rintro ⟨j, -, hj, hk⟩
        cases j with
        | zero => simpa [h] using hj
        | succ j => have := hk 0 (by omega); simp [h] at this
    | none =>
      rw [ih]
      constructor
      · rintro ⟨j, hj, hf, hk⟩
        refine ⟨j + 1, by omega, by rwa [show a + (j + 1) = a + 1 + j by omega], fun k hk' => ?_⟩
        cases k with
        | zero => simpa using h
        | succ k => have := hk k (by omega); rwa [show a + 1 + k = a + (k + 1) by omega] at this
      · rintro ⟨j, hj, hf, hk⟩
        cases j with
        | zero => simp [h] at hf
        | succ j =>
          refine ⟨j, by omega, by rwa [show a + 1 + j = a + (j + 1) by omega], fun k hk' => ?_⟩
          have := hk (k + 1) (by omega)
          rwa [show a + (k + 1) = a + 1 + k by omega] at this

theorem firstFault_read_eq_none {a n : Nat} (hn : 0 < n) :
    firstFault readFault a n = none ↔ a + n ≤ 4096 := by
  rw [firstFault_eq_none]
  constructor
  · intro h
    have := readFault_eq_none.1 (h (n - 1) (by omega))
    omega
  · intro h j hj
    exact readFault_eq_none.2 (by omega)

theorem firstFault_write_eq_none {a n : Nat} (hn : 0 < n) :
    firstFault writeFault a n = none ↔ 0x50 ≤ a ∧ a + n ≤ 4096 := by
  rw [firstFault_eq_none]
  constructor
  · intro h
    have h0 := writeFault_eq_none.1 (h 0 hn)
    have h1 := writeFault_eq_none.1 (h (n - 1) (by omega))
    omega
  · intro h j hj
    exact writeFault_eq_none.2 (by omega)

end Sys2Proof.Machine
end

