-- ==== Sys2Proof/Laws/State.lean ====
section
/-! SUPPORT. One lemma for each field of each update of State, and reading a register after an update, so
that no later proof unfolds a record update. -/

namespace Sys2Proof.Machine

/-! ## The reset state and its FONT -/

@[simp] theorem State.resetWith_font (font : FontTable) : (State.resetWith font).mem.font = font := rfl
@[simp] theorem State.resetWith_cells (font : FontTable) : (State.resetWith font).mem.cells = [] := rfl
@[simp] theorem State.reset_font : State.reset.mem.font = Config.font := rfl

/-! ## `setV` changes the registers -/

@[simp] theorem State.setV_mem (s : State) (r : Reg) (b : Byte) : (s.setV r b).mem = s.mem := rfl
@[simp] theorem State.setV_v (s : State) (r : Reg) (b : Byte) : (s.setV r b).v = s.v.set r b := rfl
@[simp] theorem State.setV_i (s : State) (r : Reg) (b : Byte) : (s.setV r b).i = s.i := rfl
@[simp] theorem State.setV_pc (s : State) (r : Reg) (b : Byte) : (s.setV r b).pc = s.pc := rfl
@[simp] theorem State.setV_stack (s : State) (r : Reg) (b : Byte) :
    (s.setV r b).stack =
      s.stack := rfl
@[simp] theorem State.setV_sp (s : State) (r : Reg) (b : Byte) : (s.setV r b).sp = s.sp := rfl
@[simp] theorem State.setV_dt (s : State) (r : Reg) (b : Byte) : (s.setV r b).dt = s.dt := rfl
@[simp] theorem State.setV_st (s : State) (r : Reg) (b : Byte) : (s.setV r b).st = s.st := rfl
@[simp] theorem State.setV_fb (s : State) (r : Reg) (b : Byte) : (s.setV r b).fb = s.fb := rfl
@[simp] theorem State.setV_key (s : State) (r : Reg) (b : Byte) : (s.setV r b).key = s.key := rfl
@[simp] theorem State.setV_lastKey (s : State) (r : Reg) (b : Byte) :
    (s.setV r b).lastKey =
      s.lastKey := rfl
@[simp] theorem State.setV_rng (s : State) (r : Reg) (b : Byte) : (s.setV r b).rng = s.rng := rfl
@[simp] theorem State.setV_diagLog (s : State) (r : Reg) (b : Byte) :
    (s.setV r b).diagLog =
      s.diagLog := rfl
@[simp] theorem State.setV_fault (s : State) (r : Reg) (b : Byte) :
    (s.setV r b).fault =
      s.fault := rfl

/-! ## `setVF` changes VF -/

@[simp] theorem State.setVF_mem (s : State) (b : Byte) : (s.setVF b).mem = s.mem := rfl
@[simp] theorem State.setVF_v (s : State) (b : Byte) : (s.setVF b).v = s.v.set VF b := rfl
@[simp] theorem State.setVF_i (s : State) (b : Byte) : (s.setVF b).i = s.i := rfl
@[simp] theorem State.setVF_pc (s : State) (b : Byte) : (s.setVF b).pc = s.pc := rfl
@[simp] theorem State.setVF_stack (s : State) (b : Byte) : (s.setVF b).stack = s.stack := rfl
@[simp] theorem State.setVF_sp (s : State) (b : Byte) : (s.setVF b).sp = s.sp := rfl
@[simp] theorem State.setVF_dt (s : State) (b : Byte) : (s.setVF b).dt = s.dt := rfl
@[simp] theorem State.setVF_st (s : State) (b : Byte) : (s.setVF b).st = s.st := rfl
@[simp] theorem State.setVF_fb (s : State) (b : Byte) : (s.setVF b).fb = s.fb := rfl
@[simp] theorem State.setVF_key (s : State) (b : Byte) : (s.setVF b).key = s.key := rfl
@[simp] theorem State.setVF_lastKey (s : State) (b : Byte) : (s.setVF b).lastKey = s.lastKey := rfl
@[simp] theorem State.setVF_rng (s : State) (b : Byte) : (s.setVF b).rng = s.rng := rfl
@[simp] theorem State.setVF_diagLog (s : State) (b : Byte) : (s.setVF b).diagLog = s.diagLog := rfl
@[simp] theorem State.setVF_fault (s : State) (b : Byte) : (s.setVF b).fault = s.fault := rfl

/-! ## `setMem` changes memory -/

@[simp] theorem State.setMem_mem (s : State) (m : Memory) : (s.setMem m).mem = m := rfl
@[simp] theorem State.setMem_v (s : State) (m : Memory) : (s.setMem m).v = s.v := rfl
@[simp] theorem State.setMem_i (s : State) (m : Memory) : (s.setMem m).i = s.i := rfl
@[simp] theorem State.setMem_pc (s : State) (m : Memory) : (s.setMem m).pc = s.pc := rfl
@[simp] theorem State.setMem_stack (s : State) (m : Memory) : (s.setMem m).stack = s.stack := rfl
@[simp] theorem State.setMem_sp (s : State) (m : Memory) : (s.setMem m).sp = s.sp := rfl
@[simp] theorem State.setMem_dt (s : State) (m : Memory) : (s.setMem m).dt = s.dt := rfl
@[simp] theorem State.setMem_st (s : State) (m : Memory) : (s.setMem m).st = s.st := rfl
@[simp] theorem State.setMem_fb (s : State) (m : Memory) : (s.setMem m).fb = s.fb := rfl
@[simp] theorem State.setMem_key (s : State) (m : Memory) : (s.setMem m).key = s.key := rfl
@[simp] theorem State.setMem_lastKey (s : State) (m : Memory) : (s.setMem m).lastKey = s.lastKey := rfl
@[simp] theorem State.setMem_rng (s : State) (m : Memory) : (s.setMem m).rng = s.rng := rfl
@[simp] theorem State.setMem_diagLog (s : State) (m : Memory) : (s.setMem m).diagLog = s.diagLog := rfl
@[simp] theorem State.setMem_fault (s : State) (m : Memory) : (s.setMem m).fault = s.fault := rfl

/-! ## `setI` changes I -/

@[simp] theorem State.setI_mem (s : State) (a : Word) : (s.setI a).mem = s.mem := rfl
@[simp] theorem State.setI_v (s : State) (a : Word) : (s.setI a).v = s.v := rfl
@[simp] theorem State.setI_i (s : State) (a : Word) : (s.setI a).i = a := rfl
@[simp] theorem State.setI_pc (s : State) (a : Word) : (s.setI a).pc = s.pc := rfl
@[simp] theorem State.setI_stack (s : State) (a : Word) : (s.setI a).stack = s.stack := rfl
@[simp] theorem State.setI_sp (s : State) (a : Word) : (s.setI a).sp = s.sp := rfl
@[simp] theorem State.setI_dt (s : State) (a : Word) : (s.setI a).dt = s.dt := rfl
@[simp] theorem State.setI_st (s : State) (a : Word) : (s.setI a).st = s.st := rfl
@[simp] theorem State.setI_fb (s : State) (a : Word) : (s.setI a).fb = s.fb := rfl
@[simp] theorem State.setI_key (s : State) (a : Word) : (s.setI a).key = s.key := rfl
@[simp] theorem State.setI_lastKey (s : State) (a : Word) : (s.setI a).lastKey = s.lastKey := rfl
@[simp] theorem State.setI_rng (s : State) (a : Word) : (s.setI a).rng = s.rng := rfl
@[simp] theorem State.setI_diagLog (s : State) (a : Word) : (s.setI a).diagLog = s.diagLog := rfl
@[simp] theorem State.setI_fault (s : State) (a : Word) : (s.setI a).fault = s.fault := rfl

/-! ## `setDt` changes DT -/

@[simp] theorem State.setDt_mem (s : State) (b : Byte) : (s.setDt b).mem = s.mem := rfl
@[simp] theorem State.setDt_v (s : State) (b : Byte) : (s.setDt b).v = s.v := rfl
@[simp] theorem State.setDt_i (s : State) (b : Byte) : (s.setDt b).i = s.i := rfl
@[simp] theorem State.setDt_pc (s : State) (b : Byte) : (s.setDt b).pc = s.pc := rfl
@[simp] theorem State.setDt_stack (s : State) (b : Byte) : (s.setDt b).stack = s.stack := rfl
@[simp] theorem State.setDt_sp (s : State) (b : Byte) : (s.setDt b).sp = s.sp := rfl
@[simp] theorem State.setDt_dt (s : State) (b : Byte) : (s.setDt b).dt = b := rfl
@[simp] theorem State.setDt_st (s : State) (b : Byte) : (s.setDt b).st = s.st := rfl
@[simp] theorem State.setDt_fb (s : State) (b : Byte) : (s.setDt b).fb = s.fb := rfl
@[simp] theorem State.setDt_key (s : State) (b : Byte) : (s.setDt b).key = s.key := rfl
@[simp] theorem State.setDt_lastKey (s : State) (b : Byte) : (s.setDt b).lastKey = s.lastKey := rfl
@[simp] theorem State.setDt_rng (s : State) (b : Byte) : (s.setDt b).rng = s.rng := rfl
@[simp] theorem State.setDt_diagLog (s : State) (b : Byte) : (s.setDt b).diagLog = s.diagLog := rfl
@[simp] theorem State.setDt_fault (s : State) (b : Byte) : (s.setDt b).fault = s.fault := rfl

/-! ## `setSt` changes ST -/

@[simp] theorem State.setSt_mem (s : State) (b : Byte) : (s.setSt b).mem = s.mem := rfl
@[simp] theorem State.setSt_v (s : State) (b : Byte) : (s.setSt b).v = s.v := rfl
@[simp] theorem State.setSt_i (s : State) (b : Byte) : (s.setSt b).i = s.i := rfl
@[simp] theorem State.setSt_pc (s : State) (b : Byte) : (s.setSt b).pc = s.pc := rfl
@[simp] theorem State.setSt_stack (s : State) (b : Byte) : (s.setSt b).stack = s.stack := rfl
@[simp] theorem State.setSt_sp (s : State) (b : Byte) : (s.setSt b).sp = s.sp := rfl
@[simp] theorem State.setSt_dt (s : State) (b : Byte) : (s.setSt b).dt = s.dt := rfl
@[simp] theorem State.setSt_st (s : State) (b : Byte) : (s.setSt b).st = b := rfl
@[simp] theorem State.setSt_fb (s : State) (b : Byte) : (s.setSt b).fb = s.fb := rfl
@[simp] theorem State.setSt_key (s : State) (b : Byte) : (s.setSt b).key = s.key := rfl
@[simp] theorem State.setSt_lastKey (s : State) (b : Byte) : (s.setSt b).lastKey = s.lastKey := rfl
@[simp] theorem State.setSt_rng (s : State) (b : Byte) : (s.setSt b).rng = s.rng := rfl
@[simp] theorem State.setSt_diagLog (s : State) (b : Byte) : (s.setSt b).diagLog = s.diagLog := rfl
@[simp] theorem State.setSt_fault (s : State) (b : Byte) : (s.setSt b).fault = s.fault := rfl

/-! ## `setFb` changes the framebuffer -/

@[simp] theorem State.setFb_mem (s : State) (f : Framebuffer) : (s.setFb f).mem = s.mem := rfl
@[simp] theorem State.setFb_v (s : State) (f : Framebuffer) : (s.setFb f).v = s.v := rfl
@[simp] theorem State.setFb_i (s : State) (f : Framebuffer) : (s.setFb f).i = s.i := rfl
@[simp] theorem State.setFb_pc (s : State) (f : Framebuffer) : (s.setFb f).pc = s.pc := rfl
@[simp] theorem State.setFb_stack (s : State) (f : Framebuffer) : (s.setFb f).stack = s.stack := rfl
@[simp] theorem State.setFb_sp (s : State) (f : Framebuffer) : (s.setFb f).sp = s.sp := rfl
@[simp] theorem State.setFb_dt (s : State) (f : Framebuffer) : (s.setFb f).dt = s.dt := rfl
@[simp] theorem State.setFb_st (s : State) (f : Framebuffer) : (s.setFb f).st = s.st := rfl
@[simp] theorem State.setFb_fb (s : State) (f : Framebuffer) : (s.setFb f).fb = f := rfl
@[simp] theorem State.setFb_key (s : State) (f : Framebuffer) : (s.setFb f).key = s.key := rfl
@[simp] theorem State.setFb_lastKey (s : State) (f : Framebuffer) : (s.setFb f).lastKey = s.lastKey := rfl
@[simp] theorem State.setFb_rng (s : State) (f : Framebuffer) : (s.setFb f).rng = s.rng := rfl
@[simp] theorem State.setFb_diagLog (s : State) (f : Framebuffer) : (s.setFb f).diagLog = s.diagLog := rfl
@[simp] theorem State.setFb_fault (s : State) (f : Framebuffer) : (s.setFb f).fault = s.fault := rfl

/-! ## `setPc` changes pc -/

@[simp] theorem State.setPc_mem (s : State) (p : Word) : (s.setPc p).mem = s.mem := rfl
@[simp] theorem State.setPc_v (s : State) (p : Word) : (s.setPc p).v = s.v := rfl
@[simp] theorem State.setPc_i (s : State) (p : Word) : (s.setPc p).i = s.i := rfl
@[simp] theorem State.setPc_pc (s : State) (p : Word) : (s.setPc p).pc = p := rfl
@[simp] theorem State.setPc_stack (s : State) (p : Word) : (s.setPc p).stack = s.stack := rfl
@[simp] theorem State.setPc_sp (s : State) (p : Word) : (s.setPc p).sp = s.sp := rfl
@[simp] theorem State.setPc_dt (s : State) (p : Word) : (s.setPc p).dt = s.dt := rfl
@[simp] theorem State.setPc_st (s : State) (p : Word) : (s.setPc p).st = s.st := rfl
@[simp] theorem State.setPc_fb (s : State) (p : Word) : (s.setPc p).fb = s.fb := rfl
@[simp] theorem State.setPc_key (s : State) (p : Word) : (s.setPc p).key = s.key := rfl
@[simp] theorem State.setPc_lastKey (s : State) (p : Word) : (s.setPc p).lastKey = s.lastKey := rfl
@[simp] theorem State.setPc_rng (s : State) (p : Word) : (s.setPc p).rng = s.rng := rfl
@[simp] theorem State.setPc_diagLog (s : State) (p : Word) : (s.setPc p).diagLog = s.diagLog := rfl
@[simp] theorem State.setPc_fault (s : State) (p : Word) : (s.setPc p).fault = s.fault := rfl

/-! ## `advance` changes pc -/

@[simp] theorem State.advance_mem (s : State) : (s.advance).mem = s.mem := rfl
@[simp] theorem State.advance_v (s : State) : (s.advance).v = s.v := rfl
@[simp] theorem State.advance_i (s : State) : (s.advance).i = s.i := rfl
@[simp] theorem State.advance_pc (s : State) : (s.advance).pc = s.pc + 2 := rfl
@[simp] theorem State.advance_stack (s : State) : (s.advance).stack = s.stack := rfl
@[simp] theorem State.advance_sp (s : State) : (s.advance).sp = s.sp := rfl
@[simp] theorem State.advance_dt (s : State) : (s.advance).dt = s.dt := rfl
@[simp] theorem State.advance_st (s : State) : (s.advance).st = s.st := rfl
@[simp] theorem State.advance_fb (s : State) : (s.advance).fb = s.fb := rfl
@[simp] theorem State.advance_key (s : State) : (s.advance).key = s.key := rfl
@[simp] theorem State.advance_lastKey (s : State) : (s.advance).lastKey = s.lastKey := rfl
@[simp] theorem State.advance_rng (s : State) : (s.advance).rng = s.rng := rfl
@[simp] theorem State.advance_diagLog (s : State) : (s.advance).diagLog = s.diagLog := rfl
@[simp] theorem State.advance_fault (s : State) : (s.advance).fault = s.fault := rfl

/-! ## `skipIf` changes pc -/

@[simp] theorem State.skipIf_mem (s : State) (taken : Bool) : (s.skipIf taken).mem = s.mem := rfl
@[simp] theorem State.skipIf_v (s : State) (taken : Bool) : (s.skipIf taken).v = s.v := rfl
@[simp] theorem State.skipIf_i (s : State) (taken : Bool) : (s.skipIf taken).i = s.i := rfl
@[simp] theorem State.skipIf_pc (s : State) (taken : Bool) :
    (s.skipIf taken).pc =
      if taken then s.pc + 4 else s.pc + 2 := rfl
@[simp] theorem State.skipIf_stack (s : State) (taken : Bool) :
    (s.skipIf taken).stack =
      s.stack := rfl
@[simp] theorem State.skipIf_sp (s : State) (taken : Bool) : (s.skipIf taken).sp = s.sp := rfl
@[simp] theorem State.skipIf_dt (s : State) (taken : Bool) : (s.skipIf taken).dt = s.dt := rfl
@[simp] theorem State.skipIf_st (s : State) (taken : Bool) : (s.skipIf taken).st = s.st := rfl
@[simp] theorem State.skipIf_fb (s : State) (taken : Bool) : (s.skipIf taken).fb = s.fb := rfl
@[simp] theorem State.skipIf_key (s : State) (taken : Bool) : (s.skipIf taken).key = s.key := rfl
@[simp] theorem State.skipIf_lastKey (s : State) (taken : Bool) :
    (s.skipIf taken).lastKey =
      s.lastKey := rfl
@[simp] theorem State.skipIf_rng (s : State) (taken : Bool) : (s.skipIf taken).rng = s.rng := rfl
@[simp] theorem State.skipIf_diagLog (s : State) (taken : Bool) :
    (s.skipIf taken).diagLog =
      s.diagLog := rfl
@[simp] theorem State.skipIf_fault (s : State) (taken : Bool) :
    (s.skipIf taken).fault =
      s.fault := rfl

/-! ## `log` changes DiagLog -/

@[simp] theorem State.log_mem (s : State) (d : Diag) : (s.log d).mem = s.mem := rfl
@[simp] theorem State.log_v (s : State) (d : Diag) : (s.log d).v = s.v := rfl
@[simp] theorem State.log_i (s : State) (d : Diag) : (s.log d).i = s.i := rfl
@[simp] theorem State.log_pc (s : State) (d : Diag) : (s.log d).pc = s.pc := rfl
@[simp] theorem State.log_stack (s : State) (d : Diag) : (s.log d).stack = s.stack := rfl
@[simp] theorem State.log_sp (s : State) (d : Diag) : (s.log d).sp = s.sp := rfl
@[simp] theorem State.log_dt (s : State) (d : Diag) : (s.log d).dt = s.dt := rfl
@[simp] theorem State.log_st (s : State) (d : Diag) : (s.log d).st = s.st := rfl
@[simp] theorem State.log_fb (s : State) (d : Diag) : (s.log d).fb = s.fb := rfl
@[simp] theorem State.log_key (s : State) (d : Diag) : (s.log d).key = s.key := rfl
@[simp] theorem State.log_lastKey (s : State) (d : Diag) : (s.log d).lastKey = s.lastKey := rfl
@[simp] theorem State.log_rng (s : State) (d : Diag) : (s.log d).rng = s.rng := rfl
@[simp] theorem State.log_diagLog (s : State) (d : Diag) :
    (s.log d).diagLog =
      s.diagLog ++ [d] := rfl
@[simp] theorem State.log_fault (s : State) (d : Diag) : (s.log d).fault = s.fault := rfl

/-! ## `afterDraw` changes the generator -/

@[simp] theorem State.afterDraw_mem (s : State) : (s.afterDraw).mem = s.mem := rfl
@[simp] theorem State.afterDraw_v (s : State) : (s.afterDraw).v = s.v := rfl
@[simp] theorem State.afterDraw_i (s : State) : (s.afterDraw).i = s.i := rfl
@[simp] theorem State.afterDraw_pc (s : State) : (s.afterDraw).pc = s.pc := rfl
@[simp] theorem State.afterDraw_stack (s : State) : (s.afterDraw).stack = s.stack := rfl
@[simp] theorem State.afterDraw_sp (s : State) : (s.afterDraw).sp = s.sp := rfl
@[simp] theorem State.afterDraw_dt (s : State) : (s.afterDraw).dt = s.dt := rfl
@[simp] theorem State.afterDraw_st (s : State) : (s.afterDraw).st = s.st := rfl
@[simp] theorem State.afterDraw_fb (s : State) : (s.afterDraw).fb = s.fb := rfl
@[simp] theorem State.afterDraw_key (s : State) : (s.afterDraw).key = s.key := rfl
@[simp] theorem State.afterDraw_lastKey (s : State) : (s.afterDraw).lastKey = s.lastKey := rfl
@[simp] theorem State.afterDraw_rng (s : State) :
    (s.afterDraw).rng =
      { s.rng with drawn := s.rng.drawn + 1 } := rfl
@[simp] theorem State.afterDraw_diagLog (s : State) : (s.afterDraw).diagLog = s.diagLog := rfl
@[simp] theorem State.afterDraw_fault (s : State) : (s.afterDraw).fault = s.fault := rfl

/-! ## `loadRegs` changes the registers -/

@[simp] theorem loadRegs_mem (s : State) (x : Reg) (a : Nat) : (loadRegs s x a).mem = s.mem := rfl
@[simp] theorem loadRegs_v (s : State) (x : Reg) (a : Nat) :
    (loadRegs s x a).v =
      Vector.ofFn fun j => if j ≤ x then s.mem.read (a + j.val) else s.v.get j := rfl
@[simp] theorem loadRegs_i (s : State) (x : Reg) (a : Nat) : (loadRegs s x a).i = s.i := rfl
@[simp] theorem loadRegs_pc (s : State) (x : Reg) (a : Nat) : (loadRegs s x a).pc = s.pc := rfl
@[simp] theorem loadRegs_stack (s : State) (x : Reg) (a : Nat) :
    (loadRegs s x a).stack =
      s.stack := rfl
@[simp] theorem loadRegs_sp (s : State) (x : Reg) (a : Nat) : (loadRegs s x a).sp = s.sp := rfl
@[simp] theorem loadRegs_dt (s : State) (x : Reg) (a : Nat) : (loadRegs s x a).dt = s.dt := rfl
@[simp] theorem loadRegs_st (s : State) (x : Reg) (a : Nat) : (loadRegs s x a).st = s.st := rfl
@[simp] theorem loadRegs_fb (s : State) (x : Reg) (a : Nat) : (loadRegs s x a).fb = s.fb := rfl
@[simp] theorem loadRegs_key (s : State) (x : Reg) (a : Nat) : (loadRegs s x a).key = s.key := rfl
@[simp] theorem loadRegs_lastKey (s : State) (x : Reg) (a : Nat) :
    (loadRegs s x a).lastKey =
      s.lastKey := rfl
@[simp] theorem loadRegs_rng (s : State) (x : Reg) (a : Nat) : (loadRegs s x a).rng = s.rng := rfl
@[simp] theorem loadRegs_diagLog (s : State) (x : Reg) (a : Nat) :
    (loadRegs s x a).diagLog =
      s.diagLog := rfl
@[simp] theorem loadRegs_fault (s : State) (x : Reg) (a : Nat) :
    (loadRegs s x a).fault =
      s.fault := rfl

/-! ## Reading a register -/

@[simp] theorem State.getV_setV_self (s : State) (r : Reg) (b : Byte) : (s.setV r b).getV r = b := by
  simp [State.getV, State.setV, Vector.get_eq_getElem]

theorem State.getV_setV_of_ne (s : State) {r q : Reg} (b : Byte) (h : q ≠ r) :
    (s.setV r b).getV q = s.getV q := by
  simp [State.getV, State.setV, Vector.get_eq_getElem, Fin.val_ne_of_ne (Ne.symm h)]

theorem State.getV_setV (s : State) (r q : Reg) (b : Byte) :
    (s.setV r b).getV q = if q = r then b else s.getV q := by
  split
  · subst q; simp
  · exact s.getV_setV_of_ne b ‹_›

@[simp] theorem State.getV_setVF (s : State) (b : Byte) (q : Reg) :
    (s.setVF b).getV q = if q = VF then b else s.getV q := s.getV_setV VF q b

@[simp] theorem State.getV_setMem (s : State) (m : Memory) (q : Reg) : (s.setMem m).getV q = s.getV q := rfl
@[simp] theorem State.getV_setI (s : State) (a : Word) (q : Reg) : (s.setI a).getV q = s.getV q := rfl
@[simp] theorem State.getV_setDt (s : State) (b : Byte) (q : Reg) : (s.setDt b).getV q = s.getV q := rfl
@[simp] theorem State.getV_setSt (s : State) (b : Byte) (q : Reg) : (s.setSt b).getV q = s.getV q := rfl
@[simp] theorem State.getV_setFb (s : State) (f : Framebuffer) (q : Reg) : (s.setFb f).getV q = s.getV q := rfl
@[simp] theorem State.getV_setPc (s : State) (p : Word) (q : Reg) : (s.setPc p).getV q = s.getV q := rfl
@[simp] theorem State.getV_advance (s : State) (q : Reg) : s.advance.getV q = s.getV q := rfl
@[simp] theorem State.getV_skipIf (s : State) (taken : Bool) (q : Reg) :
    (s.skipIf taken).getV q = s.getV q := rfl
@[simp] theorem State.getV_log (s : State) (d : Diag) (q : Reg) : (s.log d).getV q = s.getV q := rfl
@[simp] theorem State.getV_afterDraw (s : State) (q : Reg) : s.afterDraw.getV q = s.getV q := rfl

@[simp] theorem getV_loadRegs (s : State) (x q : Reg) (a : Nat) :
    (loadRegs s x a).getV q = if q ≤ x then s.mem.read (a + q.val) else s.getV q := by
  simp [State.getV, Vector.get_eq_getElem]

/-- An update of any part but the registers, written as a record update, reads the same registers. -/
theorem State.getV_of_v_eq {s t : State} (h : t.v = s.v) (q : Reg) : t.getV q = s.getV q := by
  simp [State.getV, h]

end Sys2Proof.Machine
end

