-- ==== Sys2Proof/Laws/Ops.lean ====
section
/-! SUPPORT. For each shared operation of the meanings, one lemma that says everything it can do. -/

namespace Sys2Proof.Machine

/-! ## Ending a step -/

theorem complete_eq (s : State) : complete s = .next (s.log .none) := rfl

theorem completeNext_eq (s : State) : completeNext s = .next (s.advance.log .none) := rfl

theorem reportDiagnostic_eq (d : Diag) (s : State) :
    reportDiagnostic d s = .next (s.advance.log d) := rfl

/-- A check either raises its fault or lets the instruction go on. -/
theorem checked_cases (c : Option Fault) (go : Result) :
    (∃ f, c = some f ∧ checked c go = .fault f) ∨ (c = none ∧ checked c go = go) := by
  cases c with
  | some f => exact .inl ⟨f, rfl, rfl⟩
  | none => exact .inr ⟨rfl, rfl⟩

theorem checked_eq_next {c : Option Fault} {go : Result} {t : State} :
    checked c go = .next t ↔ c = none ∧ go = .next t := by
  cases c <;> simp [checked]

/-! ## The return stack -/

/-- What a push does: with a free slot it writes the slot and counts it, else nothing. -/
theorem push_cases (s : State) (a : Word) :
    (∃ h : s.sp.val < 16, s.push a =
      some { s with stack := s.stack.set s.sp.val a, sp := ⟨s.sp.val + 1, by omega⟩ }) ∨
    (s.sp = 16 ∧ s.push a = none) := by
  by_cases h : s.sp.val < 16
  · exact .inl ⟨h, by simp [State.push, h]⟩
  · exact .inr ⟨Fin.ext (by have := s.sp.isLt; simp; omega), by simp [State.push, h]⟩

/-- What a pop does: with an occupied slot it gives the last one and uncounts it, else nothing. -/
theorem pop_cases (s : State) :
    (∃ j : Fin 16, s.sp.val = j.val + 1 ∧
      s.pop = some (s.stack.get j, { s with sp := ⟨j.val, by omega⟩ })) ∨
    (s.sp = 0 ∧ s.pop = none) := by
  unfold State.pop
  split
  · next h => exact .inr ⟨Fin.ext h, rfl⟩
  · next n h => exact .inl ⟨⟨n, by have := s.sp.isLt; omega⟩, h, rfl⟩

/-! ## Storing through I -/

/-- A store through I that completes passed every check and wrote its bytes, and nothing else. -/
theorem storeAtIndex_eq_next {bytes : List Byte} {s t : State} (hb : 0 < bytes.length) :
    storeAtIndex bytes s = .next t ↔
      (0x50 ≤ s.i.toNat ∧ s.i.toNat + bytes.length ≤ 4096) ∧
      t = (s.setMem (s.mem.writeBytes s.i.toNat bytes)).advance.log .none := by
  unfold storeAtIndex State.indexAddress
  rw [checked_eq_next, firstFault_write_eq_none hb, completeNext_eq]
  simp [eq_comm]

@[simp] theorem regBytes_length (s : State) (x : Reg) : (regBytes s x).length = x.val + 1 := by
  simp [regBytes]

theorem regBytes_getElem (s : State) (x j : Reg) (h : j.val < (regBytes s x).length) :
    (regBytes s x)[j.val] = s.getV j := by
  simp [regBytes, State.getV, Vector.get_eq_getElem]

@[simp] theorem decimalDigits_length (vx : Byte) : (decimalDigits vx).length = 3 := rfl

/-- Digit `j` of a byte, the hundreds first. -/
theorem decimalDigits_getElem_toNat (vx : Byte) (j : Nat) (h : j < 3) :
    ((decimalDigits vx)[j]'h).toNat = vx.toNat / 10 ^ (2 - j) % 10 := by
  have := vx.isLt
  interval_cases j <;> simp [decimalDigits] <;> omega

/-! ## Key tests -/

/-- A key test either skips on the named key or faults on a value that names none. -/
theorem skipOnKey_cases (x : Reg) (pressed : Bool) (s : State) :
    (∃ k : KeyIdx, (s.getV x).toNat = k.val ∧
      skipOnKey x pressed s = .next ((s.skipIf (s.key.get k == pressed)).log .none)) ∨
    (16 ≤ (s.getV x).toNat ∧ skipOnKey x pressed s = .fault (.keyIndexOutOfRange (s.getV x))) := by
  by_cases h : (s.getV x).toNat < 16
  · exact .inl ⟨⟨_, h⟩, rfl, by simp [skipOnKey, h, complete_eq, Vector.get_eq_getElem]⟩
  · exact .inr ⟨by omega, by simp [skipOnKey, h]⟩

/-- A key is pressed when one of the sixteen flags is set. -/
theorem anyKey_iff (s : State) : s.anyKey = true ↔ ∃ k : KeyIdx, s.key.get k = true := by
  unfold State.anyKey
  simp only [List.any_eq_true, id_eq, List.mem_iff_getElem, Vector.length_toList, Vector.getElem_toList]
  constructor
  · rintro ⟨b, ⟨j, hj, rfl⟩, hb⟩
    exact ⟨⟨j, hj⟩, hb⟩
  · rintro ⟨k, hk⟩
    exact ⟨_, ⟨k.val, k.isLt, rfl⟩, hk⟩

/-! ## The operand of a shift -/

theorem shiftOperand_of_ne {x : Reg} (h : x ≠ VF) (b : Byte) (s : State) : shiftOperand x b s = b := by
  simp [shiftOperand, h]

end Sys2Proof.Machine
end

