-- ==== Sys2Proof/Laws/PerInstr.lean ====
section
/-! SUPPORT. Facts about every instruction as syntax, one lemma for each constructor.

The family FixedBits: the encoding of an instruction has its row's match value under its row's mask
(R94 and spec/opcode_table.json). -/

namespace Sys2Proof.Laws.FixedBits

/-- The word of the instruction carries its row's match value under its row's mask. -/
def Statement (i : Instr) : Prop := encode i &&& i.maskBits = i.matchBits

theorem formatA_mask (op : BitVec 4) (nnn : Nat) :
    formatA op nnn &&& 0xF000#16 = op ++ (0#12 : BitVec 12) := by
  unfold formatA
  generalize BitVec.ofNat 12 nnn = a
  refine BitVec.eq_of_getLsbD_eq fun i hi => ?_
  rw [BitVec.getLsbD_and]
  repeat rw [BitVec.getLsbD_append]
  interval_cases i <;> simp

theorem formatXK_mask_op (op : BitVec 4) (x : Reg) (kk : Byte) :
    formatXK op x kk &&& 0xF000#16 = op ++ (0#12 : BitVec 12) := by
  unfold formatXK
  generalize regBits x = a
  refine BitVec.eq_of_getLsbD_eq fun i hi => ?_
  rw [BitVec.getLsbD_and]
  repeat rw [BitVec.getLsbD_append]
  interval_cases i <;> simp

theorem formatXK_mask_low (op : BitVec 4) (x : Reg) (kk : Byte) :
    formatXK op x kk &&& 0xF0FF#16 = op ++ (0#4 : BitVec 4) ++ kk := by
  unfold formatXK
  generalize regBits x = a
  refine BitVec.eq_of_getLsbD_eq fun i hi => ?_
  rw [BitVec.getLsbD_and]
  repeat rw [BitVec.getLsbD_append]
  interval_cases i <;> simp

theorem formatXYN_mask_op (op : BitVec 4) (x y : Reg) (n : BitVec 4) :
    formatXYN op x y n &&& 0xF000#16 = op ++ (0#12 : BitVec 12) := by
  unfold formatXYN
  generalize regBits x = a
  generalize regBits y = b
  refine BitVec.eq_of_getLsbD_eq fun i hi => ?_
  rw [BitVec.getLsbD_and]
  repeat rw [BitVec.getLsbD_append]
  interval_cases i <;> simp

theorem formatXYN_mask_low (op : BitVec 4) (x y : Reg) (n : BitVec 4) :
    formatXYN op x y n &&& 0xF00F#16 = op ++ (0#8 : BitVec 8) ++ n := by
  unfold formatXYN
  generalize regBits x = a
  generalize regBits y = b
  refine BitVec.eq_of_getLsbD_eq fun i hi => ?_
  rw [BitVec.getLsbD_and]
  repeat rw [BitVec.getLsbD_append]
  interval_cases i <;> simp

theorem cls : Statement (.cls) := formatXK_mask_low 0x0 0 0xE0
theorem ret : Statement (.ret) := formatXK_mask_low 0x0 0 0xEE
theorem jp (nnn : Nat) : Statement (.jp nnn) := formatA_mask 0x1 nnn
theorem call (nnn : Nat) : Statement (.call nnn) := formatA_mask 0x2 nnn
theorem seImm (x : Reg) (kk : Byte) : Statement (.seImm x kk) := formatXK_mask_op 0x3 x kk
theorem sneImm (x : Reg) (kk : Byte) : Statement (.sneImm x kk) := formatXK_mask_op 0x4 x kk
theorem seReg (x y : Reg) : Statement (.seReg x y) := formatXYN_mask_op 0x5 x y 0x0
theorem ldImm (x : Reg) (kk : Byte) : Statement (.ldImm x kk) := formatXK_mask_op 0x6 x kk
theorem addImm (x : Reg) (kk : Byte) : Statement (.addImm x kk) := formatXK_mask_op 0x7 x kk
theorem ldReg (x y : Reg) : Statement (.ldReg x y) := formatXYN_mask_low 0x8 x y 0x0
theorem orReg (x y : Reg) : Statement (.orReg x y) := formatXYN_mask_low 0x8 x y 0x1
theorem andReg (x y : Reg) : Statement (.andReg x y) := formatXYN_mask_low 0x8 x y 0x2
theorem xorReg (x y : Reg) : Statement (.xorReg x y) := formatXYN_mask_low 0x8 x y 0x3
theorem addReg (x y : Reg) : Statement (.addReg x y) := formatXYN_mask_low 0x8 x y 0x4
theorem subReg (x y : Reg) : Statement (.subReg x y) := formatXYN_mask_low 0x8 x y 0x5
theorem shr (x : Reg) : Statement (.shr x) := formatXYN_mask_low 0x8 x 0 0x6
theorem subnReg (x y : Reg) : Statement (.subnReg x y) := formatXYN_mask_low 0x8 x y 0x7
theorem shl (x : Reg) : Statement (.shl x) := formatXYN_mask_low 0x8 x 0 0xE
theorem sneReg (x y : Reg) : Statement (.sneReg x y) := formatXYN_mask_op 0x9 x y 0x0
theorem ldI (nnn : Nat) : Statement (.ldI nnn) := formatA_mask 0xA nnn
theorem jpV0 (nnn : Nat) : Statement (.jpV0 nnn) := formatA_mask 0xB nnn
theorem rnd (x : Reg) (kk : Byte) : Statement (.rnd x kk) := formatXK_mask_op 0xC x kk
theorem drw (x y : Reg) (n : Nat) : Statement (.drw x y n) :=
  formatXYN_mask_op 0xD x y (BitVec.ofNat 4 n)
theorem skp (x : Reg) : Statement (.skp x) := formatXK_mask_low 0xE x 0x9E
theorem sknp (x : Reg) : Statement (.sknp x) := formatXK_mask_low 0xE x 0xA1
theorem ldVxDt (x : Reg) : Statement (.ldVxDt x) := formatXK_mask_low 0xF x 0x07
theorem ldVxK (x : Reg) : Statement (.ldVxK x) := formatXK_mask_low 0xF x 0x0A
theorem ldDt (x : Reg) : Statement (.ldDt x) := formatXK_mask_low 0xF x 0x15
theorem ldSt (x : Reg) : Statement (.ldSt x) := formatXK_mask_low 0xF x 0x18
theorem addI (x : Reg) : Statement (.addI x) := formatXK_mask_low 0xF x 0x1E
theorem ldF (x : Reg) : Statement (.ldF x) := formatXK_mask_low 0xF x 0x29
theorem ldB (x : Reg) : Statement (.ldB x) := formatXK_mask_low 0xF x 0x33
theorem ldStore (x : Reg) : Statement (.ldStore x) := formatXK_mask_low 0xF x 0x55
theorem ldLoad (x : Reg) : Statement (.ldLoad x) := formatXK_mask_low 0xF x 0x65

end Sys2Proof.Laws.FixedBits
end

