-- ==== Sys2Proof/Tests/Slice0.lean ====
section
/-! SUPPORT. Tests of the model. Expected results come from spec/: the words are written out from the
encodings of 30_encoding.md R92 and R95, the results from the worked examples S1-S12 and the derived
vectors of 95_test_vectors.md, named by their section. The witnesses at the end show, for each statement
with hypotheses, a state and operands that meet them. -/

namespace Sys2Proof.Tests

open Sys2Proof.Machine

/-! ## Well-formedness -/

theorem test_wellFormed_refuses_address_of_13_bits : (Instr.jp 0x1000).wellFormed = false := by decide
theorem test_wellFormed_refuses_16_rows : (Instr.drw 0 0 16).wellFormed = false := by decide

/-! ## Decode: every constructor, from a word written out by R92 -/

/-- R92 format A, XK and XY: `0001 aaaa aaaa aaaa` and so on. -/
theorem test_decode_families_1_to_7 :
    decode 0b0001001000110100 = .instr (.jp 0x234) ∧
    decode 0b0010001100000000 = .instr (.call 0x300) ∧
    decode 0b0011001100101010 = .instr (.seImm 3 0x2A) ∧
    decode 0b0100001100101010 = .instr (.sneImm 3 0x2A) ∧
    decode 0b0101000100100001 = .instr (.seReg 1 2) ∧
    decode 0b0110101000101111 = .instr (.ldImm 0xA 0x2F) ∧
    decode 0b0111000100000011 = .instr (.addImm 1 0x03) := by decide

/-- R92 format XS of family 0, whose nibble w[11:8] is ignored. -/
theorem test_decode_family_0 :
    decode 0b0000000011100000 = .instr .cls ∧ decode 0b0000010111100000 = .instr .cls ∧
    decode 0b0000000011101110 = .instr .ret ∧ decode 0x00E1 = .unsupported 0x00E1 ∧
    decode 0x0000 = .unsupported 0x0000 ∧ decode 0x0123 = .unsupported 0x0123 := by decide

/-- R92 format XYS: `1000 xxxx yyyy ssss`. -/
theorem test_decode_family_8 :
    decode 0b1000000100100000 = .instr (.ldReg 1 2) ∧
    decode 0b1000000100100001 = .instr (.orReg 1 2) ∧
    decode 0b1000000100100010 = .instr (.andReg 1 2) ∧
    decode 0b1000000100100011 = .instr (.xorReg 1 2) ∧
    decode 0b1000000100100100 = .instr (.addReg 1 2) ∧
    decode 0b1000000100100101 = .instr (.subReg 1 2) ∧
    decode 0b1000000111100110 = .instr (.shr 1) ∧
    decode 0b1000000100100111 = .instr (.subnReg 1 2) ∧
    decode 0b1000000100001110 = .instr (.shl 1) ∧
    decode 0x8128 = .unsupported 0x8128 ∧ decode 0x812F = .unsupported 0x812F := by decide

theorem test_decode_families_9_to_D :
    decode 0b1001000100100000 = .instr (.sneReg 1 2) ∧
    decode 0b1010001100000000 = .instr (.ldI 0x300) ∧
    decode 0b1011111111111111 = .instr (.jpV0 0xFFF) ∧
    decode 0b1100000100001111 = .instr (.rnd 1 0x0F) ∧
    decode 0b1101000000010101 = .instr (.drw 0 1 5) := by decide

theorem test_decode_family_E :
    decode 0b1110010010011110 = .instr (.skp 4) ∧ decode 0b1110010010100001 = .instr (.sknp 4) ∧
    decode 0xE19F = .unsupported 0xE19F := by decide

theorem test_decode_family_F :
    decode 0b1111010100000111 = .instr (.ldVxDt 5) ∧ decode 0b1111001100001010 = .instr (.ldVxK 3) ∧
    decode 0b1111010100010101 = .instr (.ldDt 5) ∧ decode 0b1111001000011000 = .instr (.ldSt 2) ∧
    decode 0b1111001000011110 = .instr (.addI 2) ∧ decode 0b1111001100101001 = .instr (.ldF 3) ∧
    decode 0b1111000100110011 = .instr (.ldB 1) ∧ decode 0b1111001001010101 = .instr (.ldStore 2) ∧
    decode 0b1111001001100101 = .instr (.ldLoad 2) ∧ decode 0xF1FF = .unsupported 0xF1FF := by decide

/-- R65: the first byte of the word is its high byte. -/
theorem test_decodeTableWord_is_big_endian :
    decodeTableWord 16 0x8124 = some (.addReg 1 2) ∧ tableBytes 16 0x8124 = [0x81, 0x24] := by decide

/-! ## One step -/

/-- The reset state with the word at 0x200 and some registers set. -/
def withRegs (w : Nat) (regs : List (Reg × Byte)) : State :=
  regs.foldl (fun s p => s.setV p.1 p.2) (State.reset.withFetchWord 16 w)

/-- A part of the next state, or none when there is no next state. -/
def after {α : Type} (r : Result) (f : State → α) : Option α :=
  match r with
  | .next t => some (f t)
  | _ => none

/-- 95 2.1, R160. -/
theorem test_ldImm : after (step (withRegs 0x6A2F [])) (fun t => (t.getV 0xA, t.pc)) = some (0x2F, 0x202) := by
  decide

/-- 95 2.1, R161: wrap, no flag. -/
theorem test_addImm_wraps_without_flag :
    after (step (withRegs 0x7103 [(1, 0xFE), (VF, 0x77)])) (fun t => (t.getV 1, t.getV VF)) =
      some (0x01, 0x77) := by decide

/-- 95 2.1, R162-R165. -/
theorem test_ldReg : after (step (withRegs 0x8120 [(2, 0x55)])) (fun t => t.getV 1) = some 0x55 := by decide
theorem test_orReg_leaves_vf :
    after (step (withRegs 0x8121 [(1, 0x0F), (2, 0xF0), (VF, 0x33)])) (fun t => (t.getV 1, t.getV VF)) =
      some (0xFF, 0x33) := by decide
theorem test_andReg :
    after (step (withRegs 0x8122 [(1, 0x3C), (2, 0x0F)])) (fun t => t.getV 1) = some 0x0C := by decide
theorem test_xorReg :
    after (step (withRegs 0x8123 [(1, 0x3C), (2, 0x0F)])) (fun t => t.getV 1) = some 0x33 := by decide

/-- S4, R166. -/
theorem test_addReg_carries :
    after (step (withRegs 0x8124 [(1, 250), (2, 10)])) (fun t => (t.getV 1, t.getV VF)) = some (4, 1) := by
  decide
/-- 95 2.1: x = F, the flag wins. -/
theorem test_addReg_into_vf_leaves_the_flag :
    after (step (withRegs 0x8F14 [(VF, 0x00), (1, 0xFF)])) (fun t => t.getV VF) = some 0 := by decide

/-- S5, R167. -/
theorem test_subReg_borrows :
    after (step (withRegs 0x8125 [(1, 5), (2, 10)])) (fun t => (t.getV 1, t.getV VF)) = some (251, 0) := by
  decide
/-- 95 2.1: equal operands do not borrow. -/
theorem test_subReg_equal :
    after (step (withRegs 0x8125 [(1, 7), (2, 7)])) (fun t => (t.getV 1, t.getV VF)) = some (0, 1) := by decide

/-- 95 2.1, R169. -/
theorem test_subnReg_borrows :
    after (step (withRegs 0x8127 [(1, 10), (2, 5)])) (fun t => (t.getV 1, t.getV VF)) = some (0xFB, 0) := by
  decide

/-- 95 2.1, R168: y ignored. -/
theorem test_shr_ignores_y :
    after (step (withRegs 0x81E6 [(1, 0x03), (0xE, 0xFF)])) (fun t => (t.getV 1, t.getV VF)) = some (0x01, 1) := by
  decide
/-- 95 2.1: 8FF6 ends as 01 under `latched`, 00 under `reread`. -/
theorem test_shr_of_vf_follows_the_alias :
    after (step (withRegs 0x8FF6 [(VF, 0x03)])) (fun t => t.getV VF) =
      some (match Config.shiftVfAlias with
        | .latched => 0x01
        | .reread => 0x00) := by
  cases h : Config.shiftVfAlias <;>
    simp [withRegs, after, step, checked, exec, execShr, shiftOperand, h, State.getV, shrFlag] <;> decide

/-- 95 2.1, R170. -/
theorem test_shl :
    after (step (withRegs 0x810E [(1, 0x81)])) (fun t => (t.getV 1, t.getV VF)) = some (0x02, 1) := by decide

/-- 95 2.2. -/
theorem test_jp_to_odd_target : after (step (withRegs 0x1201 [])) (fun t => t.pc) = some 0x201 := by decide
theorem test_jpV0_past_12_bits : after (step (withRegs 0xBFFF [(0, 0xFF)])) (fun t => t.pc) = some 0x10FE := by
  decide
theorem test_call_pushes_its_own_address :
    after (step (withRegs 0x2300 [])) (fun t => (t.pc, t.sp, t.stack.get 0)) = some (0x300, 1, 0x0200) := by
  decide
theorem test_call_at_16_reports_overflow :
    after (step { withRegs 0x2300 [] with sp := 16 }) (fun t => (t.pc, t.sp, t.diagLog)) =
      some (0x202, 16, [.stackOverflow]) := by decide
theorem test_ret_ignores_w_11_8 :
    after (exec .ret { State.reset with pc := 0x300, sp := 3, stack := State.reset.stack.set 2 0x456 })
      (fun t => (t.pc, t.sp)) = some (0x458, 2) := by decide
theorem test_ret_at_0_reports_underflow :
    after (step (withRegs 0x00EE [])) (fun t => (t.pc, t.sp, t.diagLog)) =
      some (0x202, 0, [.stackUnderflow]) := by decide
theorem test_seImm : after (step (withRegs 0x332A [(3, 0x2A)])) (fun t => t.pc) = some 0x204 := by decide
theorem test_sneImm : after (step (withRegs 0x432A [(3, 0x2A)])) (fun t => t.pc) = some 0x202 := by decide
theorem test_seReg_ignores_low_nibble :
    after (step (withRegs 0x5121 [(1, 7), (2, 7)])) (fun t => t.pc) = some 0x204 := by decide
theorem test_sneReg : after (step (withRegs 0x9120 [(1, 7), (2, 8)])) (fun t => t.pc) = some 0x204 := by decide

/-- 95 2.3. -/
theorem test_ldI : after (step (withRegs 0xA300 [])) (fun t => t.i) = some 0x300 := by decide
theorem test_addI_past_memory :
    after (step { withRegs 0xF21E [(2, 1)] with i := 0x0FFF }) (fun t => t.i) = some 0x1000 := by decide
theorem test_addI_wraps :
    after (step { withRegs 0xF21E [(2, 2)] with i := 0xFFFF }) (fun t => t.i) = some 0x0001 := by decide
/-- S11. -/
theorem test_ldF : after (step (withRegs 0xF329 [(3, 0x0A)])) (fun t => t.i) = some 0x32 := by decide
theorem test_ldF_is_not_masked : after (step (withRegs 0xF329 [(3, 0xFF)])) (fun t => t.i) = some 0x4FB := by
  decide
/-- S10. -/
theorem test_ldB :
    after (step { withRegs 0xF133 [(1, 157)] with i := 0x300 })
      (fun t => (t.mem.read 0x300, t.mem.read 0x301, t.mem.read 0x302)) = some (1, 5, 7) := by decide
theorem test_ldB_past_memory_faults :
    step { withRegs 0xF133 [(1, 1)] with i := 0xFFE } = .fault (.undefinedAccess 0x1000) := by rfl
theorem test_ldStore :
    after (step { withRegs 0xF255 [(0, 1), (1, 2), (2, 3)] with i := 0x400 })
      (fun t => (t.mem.read 0x400, t.mem.read 0x401, t.mem.read 0x402, t.i)) = some (1, 2, 3, 0x400) := by
  decide
theorem test_ldStore_into_font_faults :
    step { withRegs 0xF155 [] with i := 0x4F } = .fault (.fontOverwrite 0x4F) := by rfl
/-- 95 2.3, FF65 from the font; assumes the FONT default. -/
theorem test_ldLoad_reads_the_font :
    after (step (withRegs 0xFF65 [])) (fun t => t.v.toList) =
      some [0xF0, 0x90, 0x90, 0x90, 0xF0, 0x20, 0x60, 0x20, 0x20, 0x70, 0xF0, 0x10, 0xF0, 0x80, 0xF0, 0xF0] := by
  decide
theorem test_ldLoad_past_memory_faults :
    step { withRegs 0xF265 [] with i := 0xFFE } = .fault (.undefinedAccess 0x1000) := by rfl

/-- 95 2.4: the ignored nibble, and every cell off. -/
theorem test_cls :
    after (step { withRegs 0x05E0 [] with fb := Framebuffer.blank.setCell 0 0 true }) (fun t => t.fb) =
      some Framebuffer.blank := by decide
/-- 95 2.4: DF01 reads the origin before VF is reset. -/
theorem test_drw_reads_origin_before_vf_is_reset :
    after (step { withRegs 0xDF01 [(VF, 3)] with i := 0x300, mem := (withRegs 0xDF01 []).mem.write 0x300 0x80 })
      (fun t => (t.fb, t.getV VF)) = some (Framebuffer.blank.setCell 3 0 true, 0) := by decide
/-- 95 2.4: the full origin wraps on both axes, and a collision is noted. -/
theorem test_drw_wraps_and_collides :
    after (step { withRegs 0xD011 [(0, 70), (1, 40)] with
        i := 0x300, mem := (withRegs 0xD011 []).mem.write 0x300 0x80,
        fb := Framebuffer.blank.setCell 6 8 true })
      (fun t => (t.fb.cell 6 8, t.getV VF)) = some (false, 1) := by decide

/-- 95 2.5. -/
theorem test_ldVxDt : after (step { withRegs 0xF507 [] with dt := 0x3C }) (fun t => t.getV 5) = some 0x3C := by
  decide
theorem test_ldDt : after (step (withRegs 0xF515 [(5, 5)])) (fun t => (t.dt, t.st)) = some (5, 0) := by decide
theorem test_ldSt_beeps : after (step (withRegs 0xF218 [(2, 2)])) (fun t => (t.st, isBeeping t)) = some (2, true) := by
  decide
theorem test_tick_from_1_and_0 :
    (fun t : State => (t.dt, t.st)) (tickTimers { State.reset with dt := 1 }) = (0, 0) := by decide

/-- S8: a mask of 0 gives 0 whatever the draw. -/
theorem test_rnd_with_mask_0 : after (step (withRegs 0xC100 [(1, 9)])) (fun t => t.getV 1) = some 0 := by
  have h : ∀ b : Byte, b &&& 0 = 0 := by decide
  exact congrArg some (h _)

/-- 95 2.7. -/
theorem test_skp :
    after (step { withRegs 0xE49E [(4, 15)] with key := State.reset.key.set 15 true }) (fun t => t.pc) =
      some 0x204 := by decide
theorem test_skp_of_key_16_faults : step (withRegs 0xE49E [(4, 16)]) = .fault (.keyIndexOutOfRange 16) := by rfl
theorem test_sknp :
    after (step { withRegs 0xE4A1 [(4, 5)] with key := State.reset.key.set 5 true }) (fun t => t.pc) =
      some 0x202 := by decide
/-- 95 2.7: LastKey is not checked against the flags. -/
theorem test_ldVxK_writes_lastKey :
    after (step { withRegs 0xF30A [] with key := State.reset.key.set 9 true, lastKey := 4 })
      (fun t => (t.getV 3, t.pc)) = some (4, 0x202) := by decide
theorem test_ldVxK_waits :
    after (step (withRegs 0xF30A [])) (fun t => (t.getV 3, t.pc, t.diagLog)) = some (0, 0x200, [.none]) := by
  decide

/-- 95 2.8: the zero words after reset, and a fetch past memory. -/
theorem test_unsupported_word :
    after (step State.reset) (fun t => (t.pc, t.diagLog)) =
      some (0x202, [.unsupportedOpcode 0x0000 0x200]) := by decide
theorem test_fetch_at_FFF_faults :
    step { State.reset with pc := 0xFFF } = .fault (.undefinedAccess 0x1000) := by rfl

/-! ## FONT is a parameter (R45), and memory keeps its canonical form -/

/-- R45: the default table, glyph 0 at 0x000 and glyph F at 0x04B, and another one, which `reset` keeps. -/
theorem test_font :
    State.reset.mem.read 0x000 = 0xF0 ∧ State.reset.mem.read 0x04F = 0x80 ∧ State.reset.mem.read 0x050 = 0 ∧
    (hostCall (.reset none) (State.resetWith (Vector.replicate 80 0x11))).1.mem.read 0x04F = 0x11 := by
  decide

theorem test_write_of_the_unlisted_value_leaves_no_cell :
    (State.reset.mem.write 0x300 7).write 0x300 0 = State.reset.mem ∧
    ((State.reset.mem.write 0x300 7).write 0x200 9).cells = [(0x200, 9), (0x300, 7)] := by decide

/-! ## Witnesses: a state and operands that meet the hypotheses of each statement -/

/-- DecodeOfEncodeGivesTheInstruction. -/
theorem witness_encodable : (Instr.jp 0xFFF).wellFormed = true ∧ (Instr.drw 15 15 15).wellFormed = true := by
  decide

/-- DecodedInstructionReencodesToItsWord, DecodeSelectsTheMatchingTableRow and
IgnoredBitsDoNotChangeTheInstruction. -/
theorem witness_decoded_words :
    decode 0x0AEE = .instr .ret ∧
    (0x81E6 : Word) &&& (Instr.shr 15).maskBits = (Instr.shr 15).matchBits ∧
    decode 0x5121 = .instr (.seReg 1 2) ∧
    (0x512F : Word) &&& (Instr.seReg 1 2).careBits = 0x5121 &&& (Instr.seReg 1 2).careBits := by decide

/-- Reset with a jump in the last word of memory, and pc on it. -/
def atTop : State := { State.reset with pc := 0xFFE, mem := State.reset.mem.writeBytes 0xFFE [0x12, 0x00] }

/-- StepRunsTheDecodedInstruction, at the largest pc. -/
theorem witness_step_runs :
    atTop.fault = none ∧ atTop.pc.toNat ≤ 0xFFE ∧
    decodeBytes [atTop.mem.read atTop.pc.toNat, atTop.mem.read (atTop.pc.toNat + 1)] =
      .ok (.jp 0x200, []) := by decide

/-- PlacedWordRunsNext. -/
theorem witness_placed_word : decodeTableWord 16 0xF00A = some (.ldVxK 0) := by decide

/-- FetchPastMemoryFaults, at the smallest and the largest pc of R35. -/
theorem witness_fetch_past_memory :
    State.reset.fault = none ∧ ({ State.reset with pc := 0xFFF } : State).pc.toNat > 0xFFE ∧
    ({ State.reset with pc := 0x10FE } : State).pc.toNat > 0xFFE := by decide

/-- UnsupportedWordIsReportedAndSkipped. -/
theorem witness_unsupported :
    State.reset.fault = none ∧ State.reset.pc.toNat ≤ 0xFFE ∧
    decodeBytes [State.reset.mem.read State.reset.pc.toNat, State.reset.mem.read (State.reset.pc.toNat + 1)] =
      .error (.unsupportedOpcode 0) := by decide

/-- FaultIsStickyUntilReset. -/
theorem witness_fault_set :
    ({ State.reset with fault := some (.undefinedAccess 4096) } : State).fault = some (.undefinedAccess 4096) ∧
    ∀ seed, HostOp.tickTimers ≠ .reset seed := ⟨rfl, by simp⟩

/-- FaultingCycleWritesNothing and SoundTimerDoesNotInfluenceAStep, a step that faults. -/
theorem witness_faulting_cycle :
    step { State.reset with pc := 0x10FE } = .fault (.undefinedAccess 0x10FE) := by rfl

/-- CompletedCycleReturnsTheDiagnosticItLogs, StepKeepsTheOccupiedSlots (slot 0) and
SoundTimerDoesNotInfluenceAStep, a step that completes. -/
theorem witness_completed_cycle :
    (∃ t, step atTop = .next t) ∧
    ∃ s t : State, step s = .next t ∧ (0 : Fin 16).val < s.sp.val :=
  ⟨⟨_, rfl⟩, { State.reset with sp := 16 }, _, rfl, by decide⟩

/-- DiagnosticOnlyAdvancesPc: each of the three kinds. -/
theorem witness_diagnostics :
    (∃ t, step State.reset = .next t ∧ Logs (.unsupportedOpcode 0 0x200) State.reset t) ∧
    (∃ s t : State, s.sp = 16 ∧ step s = .next t ∧ Logs .stackOverflow s t) ∧
    (∃ s t : State, s.sp = 0 ∧ step s = .next t ∧ Logs .stackUnderflow s t) :=
  ⟨⟨_, rfl, rfl⟩, ⟨{ withRegs 0x2300 [] with sp := 16 }, _, rfl, rfl, rfl⟩,
    ⟨withRegs 0x00EE [], _, rfl, rfl, rfl⟩⟩

/-- The reset state with I and V0 as given. -/
def withI (i : Word) (v0 : Byte) : State := { State.reset.setV 0 v0 with i := i }

/-- FaultsComeOnlyFromTheirInstructions: each fault of each instruction, at the value where it begins. -/
theorem witness_faults :
    exec (.drw 0 0 15) (withI 4082 0) = .fault (.undefinedAccess 4096) ∧
    exec (.ldB 0) (withI 4094 0) = .fault (.undefinedAccess 4096) ∧
    exec (.ldStore 15) (withI 4081 0) = .fault (.undefinedAccess 4096) ∧
    exec (.ldLoad 15) (withI 4081 0) = .fault (.undefinedAccess 4096) ∧
    exec (.ldB 0) (withI 0x4F 0) = .fault (.fontOverwrite 0x4F) ∧
    exec (.ldStore 0) (withI 0x4F 0) = .fault (.fontOverwrite 0x4F) ∧
    exec (.skp 0) (withI 0 16) = .fault (.keyIndexOutOfRange 16) ∧
    exec (.sknp 0) (withI 0 16) = .fault (.keyIndexOutOfRange 16) :=
  ⟨rfl, rfl, rfl, rfl, rfl, rfl, rfl, rfl⟩

/-- A state that is not the reset state: a stored byte, an occupied slot, and a word at the largest pc. -/
def inUse : State :=
  { State.reset with
    mem := { State.reset.mem with cells := [(0x300, 1), (0xFFE, 0x12)] }, pc := 0xFFE, sp := 1, stack := State.reset.stack.set 0 0xFFE }

/-- StepKeepsTheInvariant and HostOperationsKeepTheInvariant. -/
theorem witness_invariant : inUse.Inv ∧ ∃ t, step inUse = .next t := by
  refine ⟨⟨by decide, fun a h => ?_, by decide, by decide⟩, _, rfl⟩
  replace h : a < 0x50 := h
  have h1 : ¬ 0x300 = a := by omega
  have h2 : ¬ 0xFFE = a := by omega
  simp [inUse, Memory.read, Cells.find, Memory.unlisted, h1, h2]

/-- JumpsSetPc, CallPushesItsOwnAddress, LoadIndexAndFontPointer: the largest address. -/
theorem witness_largest_address : (0xFFF : Nat) < 0x1000 := by decide

/-- CallPushesItsOwnAddress and RetPopsAndAddsTwo: the last free slot and none, the last occupied slot and
none. -/
theorem witness_stack :
    (∃ s : State, s.sp.val = 15 ∧ s.sp.val < 16) ∧ (∃ s : State, s.sp = 16) ∧
    (∃ s : State, s.sp.val = (15 : Fin 16).val + 1) ∧ (∃ s : State, s.sp = 0) :=
  ⟨⟨{ State.reset with sp := 15 }, by decide⟩, ⟨{ State.reset with sp := 16 }, by decide⟩,
    ⟨{ State.reset with sp := 16 }, by decide⟩, ⟨State.reset, by decide⟩⟩

/-- CallThenRetReturnsAfterTheCall: CALL into the last slot, and a later state with another pc. -/
theorem witness_call_then_ret :
    ∃ s called later : State, s.sp.val < 16 ∧ exec (.call 0x300) s = .next called ∧
      later.sp = called.sp ∧ (∀ j : Fin 16, j.val = s.sp.val → later.stack.get j = called.stack.get j) ∧
      later ≠ called :=
  ⟨{ State.reset with sp := 15 }, _,
    { State.reset with sp := 16, stack := State.reset.stack.set 15 0x200, pc := 0x500 },
    by decide, rfl, rfl, fun j h => by rw [Fin.ext (b := (15 : Fin 16)) h]; rfl, by decide⟩

/-- BcdStoreWritesThreeDigits, BlockStoreWritesVzeroToVx and BlockLoadReadsVzeroToVx: the lowest and the
highest I. -/
theorem witness_transfer :
    (0x50 ≤ (withI 0x50 0).i.toNat ∧ (withI 0x50 0).i.toNat + 2 < 4096) ∧
    (0x50 ≤ (withI 0xFFD 0).i.toNat ∧ (withI 0xFFD 0).i.toNat + 2 < 4096) ∧
    (0x50 ≤ (withI 0xFF0 0).i.toNat ∧ (withI 0xFF0 0).i.toNat + (15 : Reg).val < 4096) ∧
    (withI 0 0).i.toNat + (15 : Reg).val < 4096 := by decide

/-- AccessThroughIndexFaultsAtLowestAddress: each clause where it begins, and at the largest I. -/
theorem witness_access_faults :
    (withI 0x4F 0).i.toNat < 0x50 ∧
    (0x50 ≤ (withI 4094 0).i.toNat ∧ 4096 ≤ (withI 4094 0).i.toNat + 2) ∧
    (0x50 ≤ (withI 4096 0).i.toNat ∧ 4096 ≤ (withI 4096 0).i.toNat + (0 : Reg).val) ∧
    4096 ≤ (withI 4081 0).i.toNat + (15 : Reg).val ∧
    (0 < 15 ∧ 15 < 16 ∧ 4096 ≤ (withI 4082 0).i.toNat + 15 - 1) ∧
    (0 < 1 ∧ 1 < 16 ∧ 4096 ≤ (withI 0xFFFF 0).i.toNat + 1 - 1) := by decide

/-- StoreIsSeenByTheNextFetch: at 0x200, a store from 0x202 on covers both bytes of the next word; one whose
last byte is 0x202 covers the first alone, and one from 0x203 on the second alone. -/
theorem witness_self_modification :
    (∃ s t : State, exec (.ldStore 1) s = .next t ∧ (1 : Reg) ≤ 1 ∧
      s.pc.toNat + 2 = s.i.toNat + (0 : Reg).val ∧ s.pc.toNat + 3 = s.i.toNat + (1 : Reg).val) ∧
    (∃ s t : State, exec (.ldB 0) s = .next t ∧ s.pc.toNat + 2 = s.i.toNat + 2) ∧
    (∃ s t : State, exec (.ldB 0) s = .next t ∧ s.pc.toNat + 3 = s.i.toNat + 0) :=
  ⟨⟨withI 0x202 0x12, _, rfl, by decide, by decide, by decide⟩, ⟨withI 0x200 0, _, rfl, by decide⟩,
    ⟨withI 0x203 0, _, rfl, by decide⟩⟩

/-- DrawXorsTheSpriteIntoTheScreen and CollisionFlagIsACellTurnedOff: the highest I of 15 rows, and a cell
turned off. -/
theorem witness_draw :
    (15 < 16 ∧ (withI 4081 0).i.toNat + 15 ≤ 4096) ∧ (∃ t, exec (.drw 0 0 15) (withI 4081 0) = .next t) ∧
    ∃ s t : State, exec (.drw 0 0 1) s = .next t ∧ ∃ c r, s.fb.cell c r = true ∧ t.fb.cell c r = false :=
  ⟨by decide, ⟨_, rfl⟩, { State.reset with fb := Framebuffer.blank.setCell 0 0 true }, _, rfl, 0, 0,
    by decide, by decide⟩

/-- BeepingIsSoundTimerAboveZero. -/
theorem witness_sound : ∃ t, exec (.ldSt 0) (withI 0 1) = .next t := ⟨_, rfl⟩

/-- RandomByteIsMaskedByKk: a bit outside the mask. -/
theorem witness_mask : (0x7F : Byte).getLsbD 7 = false := by decide

/-- KeySkipsTestTheNamedKey: the largest key, and the smallest value that names none. -/
theorem witness_key :
    ((withI 0 15).getV 0).toNat = (15 : KeyIdx).val ∧ 16 ≤ ((withI 0 16).getV 0).toNat := by decide

/-- WaitForKeyPollsTheSnapshot: only key 15 pressed, and none. -/
theorem witness_wait :
    (∃ k, ({ State.reset with key := State.reset.key.set 15 true } : State).key.get k = true) ∧
    ∀ k, State.reset.key.get k = false := ⟨⟨15, by decide⟩, by decide⟩

/-- ReportedKeyEndsTheWait. -/
theorem witness_reported_key :
    (withRegs 0xF30A []).fault = none ∧ (withRegs 0xF30A []).pc.toNat ≤ 0xFFE ∧
    decode (fetchWord (withRegs 0xF30A [])) = .instr (.ldVxK 3) ∧
    (State.reset.key.set 9 true).get (9 : KeyIdx) = true := by decide

/-- LoadProgramCopiesOrRejects and FirstFetchAfterResetIsAtProgramBase: the longest image and one byte
more. -/
theorem witness_images :
    (List.replicate 3584 (0 : Byte)).length ≤ 3584 ∧ (List.replicate 3585 (0 : Byte)).length > 3584 ∧
    (List.replicate 3582 (0 : Byte)).length ≤ 3582 := by
  simp only [List.length_replicate]
  decide

/-- ResetInitialisesEveryComponent, from a state in use, with a seed and with none. -/
theorem witness_reset :
    (∃ t, hostCall (.reset (some 7)) inUse = (t, .done)) ∧ ∃ t, hostCall (.reset none) inUse = (t, .done) :=
  ⟨⟨_, rfl⟩, _, rfl⟩

/-- ViewGivesTheGridUnchanged. -/
theorem witness_view_op :
    (∀ seed, HostOp.tickTimers ≠ .reset seed) ∧ HostOp.tickTimers ≠ .advanceCycle := by simp

/-- MemoryIndexScreenAndTimersHaveTheirWriters and StackKeysAndGeneratorHaveTheirWriters: one instruction
that none of the exceptions names. -/
theorem witness_writers :
    (∃ t, exec (.ldImm 0 1) State.reset = .next t) ∧
    (∀ x, Instr.ldImm 0 1 ≠ .ldB x ∧ Instr.ldImm 0 1 ≠ .ldStore x) ∧
    (∀ x nnn, Instr.ldImm 0 1 ≠ .ldI nnn ∧ Instr.ldImm 0 1 ≠ .addI x ∧ Instr.ldImm 0 1 ≠ .ldF x) ∧
    (∀ x y n, Instr.ldImm 0 1 ≠ .cls ∧ Instr.ldImm 0 1 ≠ .drw x y n) ∧
    (∀ x, Instr.ldImm 0 1 ≠ .ldDt x) ∧ (∀ x, Instr.ldImm 0 1 ≠ .ldSt x) ∧
    (∀ nnn, Instr.ldImm 0 1 ≠ .call nnn ∧ Instr.ldImm 0 1 ≠ .ret) ∧
    ∀ x kk, Instr.ldImm 0 1 ≠ .rnd x kk := ⟨⟨_, rfl⟩, by simp⟩

/-- OnlySixInstructionsWriteVfAsAFlag and PcIsWrittenInOneOfTheListedForms: an addition that carries. -/
theorem witness_flag_written :
    ∃ s t : State, exec (.addReg 1 2) s = .next t ∧ t.getV VF ≠ s.getV VF :=
  ⟨(State.reset.setV 1 0xFF).setV 2 1, _, rfl, by decide⟩

/-- SelfJumpAndIdleWaitAreEnds: both forms. -/
theorem witness_ends :
    (∃ s : State, s.fault = none ∧ s.pc.toNat ≤ 0xFFE ∧ s.Quiet ∧
      decode (fetchWord s) = .instr (.jp s.pc.toNat)) ∧
    (∃ s : State, s.fault = none ∧ s.pc.toNat ≤ 0xFFE ∧ s.Quiet ∧
      decode (fetchWord s) = .instr (.ldVxK 3)) :=
  ⟨⟨withRegs 0x1200 [], by decide, by decide, ⟨by decide, by decide, by decide⟩, by decide⟩,
    ⟨withRegs 0xF30A [], by decide, by decide, ⟨by decide, by decide, by decide⟩, by decide⟩⟩

end Sys2Proof.Tests
end

/-! PROOFS. The state family (10_state.md): which instruction writes which part of the state, and what
every step keeps. `Effect` says once what an instruction that completes can have done; the statements about
writers and the invariant are read off it. -/

namespace Sys2Proof

/-- The registers an instruction may write (R32): its named destination, VF where it is a flag, and V0 to
Vx for a block load. -/
def Instr.writtenRegs : Instr → List Reg
  | .ldImm x _ | .addImm x _ | .ldReg x _ | .orReg x _ | .andReg x _ | .xorReg x _ | .rnd x _
  | .ldVxDt x | .ldVxK x => [x]
  | .addReg x _ | .subReg x _ | .subnReg x _ | .shr x | .shl x => [x, VF]
  | .drw _ _ _ => [VF]
  | .ldLoad x => (List.finRange 16).filter (· ≤ x)
  | _ => []

/-- An instruction that may write VF has it as a flag or as its named destination (R32). -/
theorem Instr.cases_of_VF_mem_writtenRegs {i : Instr} (h : VF ∈ i.writtenRegs) :
    (∃ x y n, i ∈ [.addReg x y, .subReg x y, .shr x, .subnReg x y, .shl x, .drw x y n]) ∨
    (∃ y kk, i ∈ [.ldImm VF kk, .addImm VF kk, .ldReg VF y, .orReg VF y, .andReg VF y, .xorReg VF y,
      .rnd VF kk, .ldVxDt VF, .ldVxK VF, .ldLoad VF]) := by
  cases i with
  | addReg | subReg | subnReg | shr | shl | drw => exact .inl (by simp)
  | ldImm | addImm | ldReg | orReg | andReg | xorReg | rnd | ldVxDt | ldVxK =>
    exact .inr (by simpa [writtenRegs, eq_comm] using h)
  | ldLoad x =>
    have hx : VF ≤ x := by simpa [writtenRegs] using h
    have : x = VF := le_antisymm (Fin.le_last x) hx
    exact .inr (by simp [this])
  | _ => simp [writtenRegs] at h

/-! ## The operands the decoder reads -/

theorem decodeFamily0_wellFormed {w : Word} {i : Instr} (h : decodeFamily0 w = .instr i) :
    i.wellFormed = true := by
  unfold decodeFamily0 at h
  split at h <;> cases h <;> rfl

theorem decodeFamily8_wellFormed {w : Word} {i : Instr} (h : decodeFamily8 w = .instr i) :
    i.wellFormed = true := by
  unfold decodeFamily8 at h
  split at h <;> cases h <;> rfl

theorem decodeFamilyE_wellFormed {w : Word} {i : Instr} (h : decodeFamilyE w = .instr i) :
    i.wellFormed = true := by
  unfold decodeFamilyE at h
  split at h <;> cases h <;> rfl

theorem decodeFamilyF_wellFormed {w : Word} {i : Instr} (h : decodeFamilyF w = .instr i) :
    i.wellFormed = true := by
  unfold decodeFamilyF at h
  split at h <;> cases h <;> rfl

theorem addressFits_fieldNnn (w : Word) : addressFits (fieldNnn w).toNat = true :=
  decide_eq_true (fieldNnn w).isLt

theorem rowsFit_fieldN (w : Word) : rowsFit (fieldN w).toNat = true :=
  decide_eq_true (fieldN w).isLt

/-- What the decoder gives is encodable: its address and row operands fit their fields (R91). -/
theorem decode_wellFormed {w : Word} {i : Instr} (h : decode w = .instr i) : i.wellFormed = true := by
  unfold decode at h
  split at h
  · exact decodeFamily0_wellFormed h
  · cases h; exact addressFits_fieldNnn w
  · cases h; exact addressFits_fieldNnn w
  · cases h; rfl
  · cases h; rfl
  · cases h; rfl
  · cases h; rfl
  · cases h; rfl
  · exact decodeFamily8_wellFormed h
  · cases h; rfl
  · cases h; exact addressFits_fieldNnn w
  · cases h; exact addressFits_fieldNnn w
  · cases h; rfl
  · cases h; exact rowsFit_fieldN w
  · exact decodeFamilyE_wellFormed h
  · exact decodeFamilyF_wellFormed h

end Sys2Proof

namespace Sys2Proof.Machine

/-! ## Registers kept -/

theorem KeepsRegs.trans {rs : List Reg} {s t u : State} (hst : KeepsRegs rs s t)
    (htu : KeepsRegs rs t u) : KeepsRegs rs s u := fun r hr => (htu r hr).trans (hst r hr)

theorem keepsRegs_setV {rs : List Reg} {x : Reg} (hx : x ∈ rs) (s : State) (b : Byte) :
    KeepsRegs rs s (s.setV x b) :=
  fun _ hr => s.getV_setV_of_ne b fun h => hr (h ▸ hx)

theorem keepsRegs_setV_setVF (x : Reg) (s : State) (b f : Byte) :
    KeepsRegs [x, VF] s ((s.setV x b).setVF f) :=
  (keepsRegs_setV (by simp) s b).trans (keepsRegs_setV (by simp) _ f)

theorem keepsRegs_setVF_setV (x : Reg) (s : State) (b f : Byte) :
    KeepsRegs [x, VF] s ((s.setVF f).setV x b) :=
  (keepsRegs_setV (by simp) s f).trans (keepsRegs_setV (by simp) _ b)

theorem keepsRegs_loadRegs {rs : List Reg} {x : Reg} (hx : ∀ r ≤ x, r ∈ rs) (s : State) (a : Nat) :
    KeepsRegs rs s (loadRegs s x a) :=
  fun r hr => by rw [getV_loadRegs, if_neg fun h => hr (hx r h)]

/-! ## What an instruction that completes has done -/

/-- The forms of the state an instruction leaves when it completes, one constructor for each part of the
state it may write. `exec_effect` ties it to `exec`. Values that no whole-machine rule speaks of are left
open. -/
inductive Effect (s : State) : Instr → State → Prop
  /-- only general registers are written, those of `writtenRegs` (R31, R32) -/
  | registers {i : Instr} (v : Vector Byte 16) (kept : KeepsRegs i.writtenRegs s { s with v := v }) :
      Effect s i ({ s with v := v }.advance.log .none)
  /-- RND writes Vx and draws once (R251) -/
  | random (x : Reg) (kk b : Byte) : Effect s (.rnd x kk) ((s.afterDraw.setV x b).advance.log .none)
  /-- the writers of I (R33) -/
  | index {i : Instr} (a : Word) (writer : ∃ nnn x, i ∈ [.ldI nnn, .addI x, .ldF x]) :
      Effect s i ((s.setI a).advance.log .none)
  /-- LD DT,Vx (R231) -/
  | delayTimer (x : Reg) : Effect s (.ldDt x) ((s.setDt (s.getV x)).advance.log .none)
  /-- LD ST,Vx (R232) -/
  | soundTimer (x : Reg) : Effect s (.ldSt x) ((s.setSt (s.getV x)).advance.log .none)
  /-- CLS (R210) -/
  | clear : Effect s .cls ((s.setFb Framebuffer.blank).advance.log .none)
  /-- DRW writes FB and VF (R211, R212) -/
  | draw (x y : Reg) (n : Nat) (fb : Framebuffer) (flag : Byte) :
      Effect s (.drw x y n) ((((s.setVF 0).setFb fb).setVF flag).advance.log .none)
  /-- a store through I, all of it in writable memory (R63, R193, R194) -/
  | store {i : Instr} (bytes : List Byte) (writer : ∃ x, i ∈ [.ldB x, .ldStore x])
      (low : 0x50 ≤ s.i.toNat) (high : s.i.toNat + bytes.length ≤ 4096) :
      Effect s i ((s.setMem (s.mem.writeBytes s.i.toNat bytes)).advance.log .none)
  /-- a conditional skip (R41) -/
  | skip {i : Instr} (taken : Bool)
      (skips : ∃ x y kk, i ∈ [.seImm x kk, .sneImm x kk, .seReg x y, .sneReg x y, .skp x, .sknp x]) :
      Effect s i ((s.skipIf taken).log .none)
  /-- LD Vx,K with no key pressed (R262) -/
  | wait (x : Reg) (idle : s.anyKey = false) : Effect s (.ldVxK x) (s.log .none)
  /-- JP (R130) -/
  | jump (nnn : Nat) : Effect s (.jp nnn) ((s.setPc (addressOperand nnn)).log .none)
  /-- JP V0 (R137) -/
  | jumpV0 (nnn : Nat) :
      Effect s (.jpV0 nnn) ((s.setPc (addressOperand nnn + zext16 (s.getV 0))).log .none)
  /-- CALL with a free slot (R131) -/
  | call (nnn : Nat) (free : s.sp.val < 16) :
      Effect s (.call nnn) ((State.setPc { s with
        stack := s.stack.set s.sp.val s.pc, sp := ⟨s.sp.val + 1, by omega⟩ } (addressOperand nnn)).log .none)
  /-- CALL with none (R131) -/
  | callFull (nnn : Nat) (full : s.sp = 16) : Effect s (.call nnn) (s.advance.log .stackOverflow)
  /-- RET with an occupied slot (R132) -/
  | ret (j : Fin 16) (occupied : s.sp.val = j.val + 1) :
      Effect s .ret ((State.setPc { s with sp := ⟨j.val, by omega⟩ } (s.stack.get j + 2)).log .none)
  /-- RET with none (R132) -/
  | retEmpty (empty : s.sp = 0) : Effect s .ret (s.advance.log .stackUnderflow)

/-- An instruction that falls through having written only registers of its list. -/
theorem effect_of_completeNext {i : Instr} {s u t : State} (h : completeNext u = .next t)
    (only : u = { s with v := u.v }) (kept : KeepsRegs i.writtenRegs s u) : Effect s i t := by
  rw [completeNext_eq] at h
  cases h
  rw [only] at kept ⊢
  exact .registers u.v kept

theorem effect_of_storeAtIndex {i : Instr} {bytes : List Byte} {s t : State} (hb : 0 < bytes.length)
    (writer : ∃ x, i ∈ [.ldB x, .ldStore x]) (h : storeAtIndex bytes s = .next t) : Effect s i t := by
  obtain ⟨⟨low, high⟩, rfl⟩ := (storeAtIndex_eq_next hb).1 h
  exact .store bytes writer low high

theorem effect_of_skipOnKey {x : Reg} {pressed : Bool} {i : Instr} {s t : State}
    (hi : i = .skp x ∨ i = .sknp x) (h : skipOnKey x pressed s = .next t) : Effect s i t := by
  obtain ⟨k, -, hk⟩ | ⟨-, hk⟩ := skipOnKey_cases x pressed s
  · cases hk.symm.trans h
    exact .skip _ ⟨x, x, 0, by obtain rfl | rfl := hi <;> simp⟩
  · cases hk.symm.trans h

theorem effect_of_execCall {nnn : Nat} {s t : State} (h : execCall nnn s = .next t) :
    Effect s (.call nnn) t := by
  unfold execCall at h
  obtain ⟨free, hp⟩ | ⟨full, hp⟩ := push_cases s s.pc
  · rw [hp] at h; cases h; exact .call nnn free
  · rw [hp] at h; cases h; exact .callFull nnn full

theorem effect_of_execRet {s t : State} (h : execRet s = .next t) : Effect s .ret t := by
  unfold execRet at h
  obtain ⟨j, occupied, hp⟩ | ⟨empty, hp⟩ := pop_cases s
  · rw [hp] at h; cases h; exact .ret j occupied
  · rw [hp] at h; cases h; exact .retEmpty empty

theorem effect_of_execLdVxK {x : Reg} {s t : State} (h : execLdVxK x s = .next t) :
    Effect s (.ldVxK x) t := by
  unfold execLdVxK at h
  split at h
  · exact effect_of_completeNext h rfl (keepsRegs_setV (by simp [Instr.writtenRegs]) s _)
  · next idle => cases h; exact .wait x (by simpa using idle)

/-- Every instruction that completes has one of the effects. -/
theorem exec_effect {i : Instr} {s t : State} (h : exec i s = .next t) : Effect s i t := by
  cases i with
  | cls => cases h; exact .clear
  | ret => exact effect_of_execRet h
  | jp nnn => cases h; exact .jump nnn
  | call nnn => exact effect_of_execCall h
  | jpV0 nnn => cases h; exact .jumpV0 nnn
  | seImm x kk => cases h; exact .skip _ ⟨x, x, kk, by simp⟩
  | sneImm x kk => cases h; exact .skip _ ⟨x, x, kk, by simp⟩
  | seReg x y => cases h; exact .skip _ ⟨x, y, 0, by simp⟩
  | sneReg x y => cases h; exact .skip _ ⟨x, y, 0, by simp⟩
  | skp x => exact effect_of_skipOnKey (.inl rfl) h
  | sknp x => exact effect_of_skipOnKey (.inr rfl) h
  | ldImm | addImm | ldReg | orReg | andReg | xorReg | ldVxDt =>
    exact effect_of_completeNext h rfl (keepsRegs_setV (by simp [Instr.writtenRegs]) s _)
  | addReg | subReg | subnReg => exact effect_of_completeNext h rfl (keepsRegs_setV_setVF _ s _ _)
  | shr | shl => exact effect_of_completeNext h rfl (keepsRegs_setVF_setV _ s _ _)
  | ldLoad x =>
    obtain ⟨-, h⟩ := checked_eq_next.1 h
    exact effect_of_completeNext h rfl
      (keepsRegs_loadRegs (fun r hr => by simpa [Instr.writtenRegs] using hr) s _)
  | rnd x kk => cases h; exact .random x kk _
  | ldVxK x => exact effect_of_execLdVxK h
  | ldI nnn => cases h; exact .index _ ⟨nnn, 0, by simp⟩
  | addI x => cases h; exact .index _ ⟨0, x, by simp⟩
  | ldF x => cases h; exact .index _ ⟨0, x, by simp⟩
  | ldDt x => cases h; exact .delayTimer x
  | ldSt x => cases h; exact .soundTimer x
  | drw x y n =>
    obtain ⟨-, h⟩ := checked_eq_next.1 h
    cases h
    exact .draw x y n _ _
  | ldB x => exact effect_of_storeAtIndex (by simp) ⟨x, by simp⟩ h
  | ldStore x => exact effect_of_storeAtIndex (by simp) ⟨x, by simp⟩ h


/-! ## Which part of the state an instruction writes -/

/-- An instruction writes no register outside its list (R32). -/
theorem exec_keepsRegs {i : Instr} {s t : State} (h : exec i s = .next t) :
    KeepsRegs i.writtenRegs s t := by
  cases exec_effect h with
  | registers v kept => exact kept
  | random x kk b => exact keepsRegs_setV (by simp [Instr.writtenRegs]) s b
  | draw x y n fb flag =>
    intro r hr
    have : r ≠ VF := by simpa [Instr.writtenRegs] using hr
    simp [this]
  | _ => exact fun _ _ => rfl

/-- Memory is kept, or bytes are stored through I in writable memory (R60, R63). -/
theorem exec_mem_cases {i : Instr} {s t : State} (h : exec i s = .next t) :
    t.mem = s.mem ∨
    ∃ bytes, 0x50 ≤ s.i.toNat ∧ s.i.toNat + bytes.length ≤ 4096 ∧
      t.mem = s.mem.writeBytes s.i.toNat bytes := by
  cases exec_effect h with
  | store bytes writer low high => exact .inr ⟨bytes, low, high, rfl⟩
  | _ => exact .inl rfl

/-- The return-address slots are kept, or CALL writes pc into the free slot at SP (R36). -/
theorem exec_stack_cases {i : Instr} {s t : State} (h : exec i s = .next t) :
    t.stack = s.stack ∨ ∃ free : s.sp.val < 16, t.stack = s.stack.set s.sp.val s.pc := by
  cases exec_effect h with
  | call nnn free => exact .inr ⟨free, rfl⟩
  | _ => exact .inl rfl

/-- Settles O56, by the effect of the instruction. -/
theorem stackKeysAndGeneratorHaveTheirWriters : Obligations.StackKeysAndGeneratorHaveTheirWriters := by
  unfold Obligations.StackKeysAndGeneratorHaveTheirWriters
  intro i s t h
  cases exec_effect h with
  | random x kk b => exact ⟨fun _ => ⟨rfl, rfl⟩, fun no => absurd rfl (no x kk), rfl, rfl, rfl⟩
  | call nnn => exact ⟨fun no => absurd rfl (no nnn).1, fun _ => rfl, rfl, rfl, rfl⟩
  | ret => exact ⟨fun no => absurd rfl (no 0).2, fun _ => rfl, rfl, rfl, rfl⟩
  | _ => exact ⟨fun _ => ⟨rfl, rfl⟩, fun _ => rfl, rfl, rfl, rfl⟩

/-- Settles O57: VF changed, so it is one of the registers the instruction may write. -/
theorem onlySixInstructionsWriteVfAsAFlag : Obligations.OnlySixInstructionsWriteVfAsAFlag := by
  unfold Obligations.OnlySixInstructionsWriteVfAsAFlag
  intro i s t h changed
  have hVF : VF ∈ i.writtenRegs := by
    by_contra hn
    exact changed (exec_keepsRegs h VF hn)
  exact Instr.cases_of_VF_mem_writtenRegs hVF

theorem addressOperand_add_zext16 (nnn : Nat) (b : Byte) :
    addressOperand nnn + zext16 b = BitVec.ofNat 16 (nnn + b.toNat) := by
  rw [addressOperand, zext16, BitVec.ofNat_add]
  exact congrArg _ (BitVec.eq_of_toNat_eq (by simp))

/-- Settles O58, by the effect of the instruction. -/
theorem pcIsWrittenInOneOfTheListedForms : Obligations.PcIsWrittenInOneOfTheListedForms := by
  unfold Obligations.PcIsWrittenInOneOfTheListedForms
  intro i s t h
  cases exec_effect h with
  | skip taken skips =>
    cases taken with
    | true => exact .inr (.inl ⟨rfl, skips⟩)
    | false => exact .inl rfl
  | wait x idle => exact .inr (.inr (.inl ⟨rfl, idle, x, rfl⟩))
  | jump nnn => exact .inr (.inr (.inr (.inl ⟨nnn, .inl rfl, rfl⟩)))
  | call nnn => exact .inr (.inr (.inr (.inl ⟨nnn, .inr rfl, rfl⟩)))
  | jumpV0 nnn =>
    exact .inr (.inr (.inr (.inr (.inl ⟨nnn, rfl, addressOperand_add_zext16 nnn (s.getV 0)⟩))))
  | ret j occupied => exact .inr (.inr (.inr (.inr (.inr ⟨rfl, j, occupied, rfl⟩))))
  | _ => exact .inl rfl

/-! ## What a step that completes has done -/

theorem fetchFault_eq_none {s : State} : fetchFault s = none ↔ s.pc.toNat ≤ 0xFFE := by
  simp [fetchFault]

/-- A step that completes had no fault set and fetched inside memory; it ran the decoded instruction, or
reported the unsupported word (R101, R102). -/
theorem step_next_cases {s t : State} (h : step s = .next t) :
    s.fault = none ∧ s.pc.toNat ≤ 0xFFE ∧
    ((∃ i, decode (fetchWord s) = .instr i ∧ exec i s = .next t) ∨
     ∃ w, decode (fetchWord s) = .unsupported w ∧
      t = s.advance.log (.unsupportedOpcode w s.pc)) := by
  unfold step at h
  split at h
  · cases h
  · next hfault =>
    obtain ⟨hfetch, h⟩ := checked_eq_next.1 h
    refine ⟨hfault, fetchFault_eq_none.1 hfetch, ?_⟩
    split at h
    · next i hi => exact .inl ⟨i, hi, h⟩
    · next w hw => cases h; exact .inr ⟨w, hw, rfl⟩

/-- The memory a step leaves (R60, R63). -/
theorem step_mem_cases {s t : State} (h : step s = .next t) :
    t.mem = s.mem ∨
    ∃ bytes, 0x50 ≤ s.i.toNat ∧ s.i.toNat + bytes.length ≤ 4096 ∧
      t.mem = s.mem.writeBytes s.i.toNat bytes := by
  obtain ⟨-, -, ⟨i, -, h⟩ | ⟨w, -, rfl⟩⟩ := step_next_cases h
  · exact exec_mem_cases h
  · exact .inl rfl

/-- The return-address slots a step leaves (R36). -/
theorem step_stack_cases {s t : State} (h : step s = .next t) :
    t.stack = s.stack ∨ ∃ free : s.sp.val < 16, t.stack = s.stack.set s.sp.val s.pc := by
  obtain ⟨-, -, ⟨i, -, h⟩ | ⟨w, -, rfl⟩⟩ := step_next_cases h
  · exact exec_stack_cases h
  · exact .inl rfl

/-- A slot after one slot is written. -/
theorem get_stack_set (stack : Vector Word 16) (n : Nat) (hn : n < 16) (a : Word) (j : Fin 16) :
    (stack.set n a).get j = if j.val = n then a else stack.get j := by
  rw [Vector.get_eq_getElem, Vector.getElem_set, Vector.get_eq_getElem]
  simp only [eq_comm]

/-- Settles O20: a push writes the slot at SP, which is not occupied. -/
theorem stepKeepsTheOccupiedSlots : Obligations.StepKeepsTheOccupiedSlots := by
  unfold Obligations.StepKeepsTheOccupiedSlots
  intro s t h j occupied
  obtain hs | ⟨free, hs⟩ := step_stack_cases h
  · rw [hs]
  · rw [hs, get_stack_set, if_neg (by omega)]

/-! ## The invariant -/

/-- Writes past the font leave it intact (R61). -/
theorem fontIntact_writeBytes {s t : State} (h : s.fontIntact) {a : Nat} (ha : 0x50 ≤ a)
    {bytes : List Byte} (hm : t.mem = s.mem.writeBytes a bytes) : t.fontIntact := by
  intro b hb
  rw [hm, Memory.writeBytes_unlisted, ← h b hb]
  exact Memory.read_writeBytes_outside bytes s.mem a b (.inl (lt_of_lt_of_le hb ha))

/-- From a pc inside memory and return addresses in range, an encodable instruction leaves pc at most
0x10FE, the largest target of JP V0 (R35). -/
theorem exec_pc_le {i : Instr} {s t : State} (hwf : i.wellFormed = true) (hpc : s.pc.toNat ≤ 0xFFE)
    (hstack : ∀ j : Fin 16, (s.stack.get j).toNat ≤ 0xFFE) (h : exec i s = .next t) :
    t.pc.toNat ≤ 0x10FE := by
  have hV0 := (s.getV 0).isLt
  obtain hp | ⟨hp, -⟩ | ⟨hp, -⟩ | ⟨nnn, hi, hp⟩ | ⟨nnn, rfl, hp⟩ | ⟨-, j, -, hp⟩ :=
    pcIsWrittenInOneOfTheListedForms i s t h
  · rw [hp]; bv_omega
  · rw [hp]; bv_omega
  · rw [hp]; omega
  · have hn : nnn < 0x1000 := by
      obtain rfl | rfl := hi <;> exact of_decide_eq_true hwf
    rw [hp, BitVec.toNat_ofNat]; omega
  · have hn : nnn < 0x1000 := of_decide_eq_true hwf
    rw [hp, BitVec.toNat_ofNat]; omega
  · have := hstack j
    rw [hp]; bv_omega

theorem step_pc_le {s t : State} (hstack : ∀ j : Fin 16, (s.stack.get j).toNat ≤ 0xFFE)
    (h : step s = .next t) : t.pc.toNat ≤ 0x10FE := by
  obtain ⟨-, hpc, ⟨i, hi, h⟩ | ⟨w, -, rfl⟩⟩ := step_next_cases h
  · exact exec_pc_le (decode_wellFormed hi) hpc hstack h
  · simp only [State.log_pc, State.advance_pc]; bv_omega

/-- A return address a step pushes is the pc it fetched at, so it is in range like the others (R36). -/
theorem step_stack_le {s t : State} (hstack : ∀ j : Fin 16, (s.stack.get j).toNat ≤ 0xFFE)
    (h : step s = .next t) (j : Fin 16) : (t.stack.get j).toNat ≤ 0xFFE := by
  obtain ⟨-, hpc, -⟩ := step_next_cases h
  obtain hs | ⟨free, hs⟩ := step_stack_cases h
  · rw [hs]; exact hstack j
  · rw [hs, get_stack_set]
    split
    · exact hpc
    · exact hstack j

/-- Settles O18: memory and the font by `step_mem_cases`, pc and the return addresses by their bounds at
the fetch. -/
theorem stepKeepsTheInvariant : Obligations.StepKeepsTheInvariant := by
  unfold Obligations.StepKeepsTheInvariant
  rintro s t ⟨hwf, hfont, -, hstack⟩ h
  have hbounds : t.pcBounded := ⟨step_pc_le hstack h, step_stack_le hstack h⟩
  obtain hm | ⟨bytes, low, high, hm⟩ := step_mem_cases h
  · refine ⟨⟨?_, ?_, hbounds⟩, by rw [hm]⟩
    · rwa [hm]
    · unfold State.fontIntact; rwa [hm]
  · refine ⟨⟨?_, fontIntact_writeBytes hfont low hm, hbounds⟩, ?_⟩
    · rw [hm]; exact Memory.writeBytes_wf bytes hwf high
    · rw [hm, Memory.writeBytes_font]

/-! ## The state after reset -/

theorem resetWith_read (font : FontTable) (a : Nat) :
    (State.resetWith font).mem.read a = (State.resetWith font).mem.unlisted a := rfl

/-- What an unlisted address below the end of the font reads as (R46). -/
theorem Memory.unlisted_eq_font (m : Memory) {a : Nat} (h : a < 80) : m.unlisted a = m.font[a] := by
  simp [Memory.unlisted, h]

theorem Memory.unlisted_eq_zero (m : Memory) {a : Nat} (h : 80 ≤ a) : m.unlisted a = 0 := by
  simp [Memory.unlisted, h]

theorem resetWith_inv (font : FontTable) : (State.resetWith font).Inv where
  memWf := Memory.wf_nil font
  font a _ := resetWith_read font a
  bounds := ⟨by simp [State.resetWith], fun j => by simp [State.resetWith, Vector.get_eq_getElem]⟩

/-- Settles O17, for the default of FONT as for any other table. -/
theorem resetStateHasTheInvariant : Obligations.ResetStateHasTheInvariant := by
  unfold Obligations.ResetStateHasTheInvariant
  exact ⟨resetWith_inv Config.font, resetWith_inv⟩

/-- Settles O51, component by component. -/
theorem resetInitialisesEveryComponent : Obligations.ResetInitialisesEveryComponent := by
  unfold Obligations.ResetInitialisesEveryComponent
  intro seed s
  refine ⟨hostReset seed s, rfl, ?regs, rfl, ?stack, rfl, rfl, rfl, ?screen, ?keys, rfl, ?zeros, ?font,
    rfl, rfl, ?supplied, ?entropy, rfl, rfl⟩
  case regs => intro r; simp [hostReset, State.resetWith, State.getV, Vector.get_eq_getElem]
  case stack => intro j; simp [hostReset, State.resetWith, Vector.get_eq_getElem]
  case screen => exact Framebuffer.cell_blank
  case keys => intro k; simp [hostReset, State.resetWith, Vector.get_eq_getElem]
  case zeros => exact fun a ha => (resetWith_read _ a).trans (Memory.unlisted_eq_zero _ ha)
  case font => exact fun a ha => (resetWith_read _ a).trans (Memory.unlisted_eq_font _ ha)
  case supplied => rintro k rfl; rfl
  case entropy => rintro rfl; rfl

/-! ## The sound timer is not read -/

/-- The outcomes of two runs that began in states that differ in ST alone: both go on, to states equal up
to ST, or both stop with the same fault (R37). -/
def AlikeUpToSt (r r' : Result) : Prop :=
  (∀ t, r = .next t → ∃ t', r' = .next t' ∧ { t' with st := t.st } = t) ∧
  (∀ f, r = .fault f → r' = .fault f)

theorem alikeUpToSt_next (t : State) (b : Byte) : AlikeUpToSt (.next t) (.next (t.setSt b)) :=
  ⟨fun _ ht => by cases ht; exact ⟨t.setSt b, rfl, rfl⟩, fun _ hf => nomatch hf⟩

theorem alikeUpToSt_fault (f : Fault) : AlikeUpToSt (.fault f) (.fault f) :=
  ⟨fun _ ht => (nomatch ht), fun _ hf => hf⟩

theorem complete_alikeUpToSt (t : State) (b : Byte) :
    AlikeUpToSt (complete t) (complete (t.setSt b)) := alikeUpToSt_next _ b

theorem completeNext_alikeUpToSt (t : State) (b : Byte) :
    AlikeUpToSt (completeNext t) (completeNext (t.setSt b)) := alikeUpToSt_next _ b

theorem AlikeUpToSt.checked {r r' : Result} (h : AlikeUpToSt r r') (c : Option Fault) :
    AlikeUpToSt (checked c r) (checked c r') := by
  cases c with
  | none => exact h
  | some f => exact alikeUpToSt_fault f

theorem push_setSt (s : State) (a : Word) (b : Byte) :
    (s.setSt b).push a = (s.push a).map fun t => t.setSt b := by
  obtain ⟨h, hp⟩ | ⟨h, hp⟩ := push_cases s a <;> rw [hp] <;> simp [State.push, h, State.setSt]

theorem pop_setSt (s : State) (b : Byte) :
    (s.setSt b).pop = s.pop.map fun p => (p.1, p.2.setSt b) := by
  unfold State.pop
  dsimp only [State.setSt]
  split <;> rfl

theorem execCall_alikeUpToSt (nnn : Nat) (s : State) (b : Byte) :
    AlikeUpToSt (execCall nnn s) (execCall nnn (s.setSt b)) := by
  unfold execCall
  rw [State.setSt_pc, push_setSt]
  cases s.push s.pc with
  | some pushed => exact alikeUpToSt_next _ b
  | none => exact alikeUpToSt_next _ b

theorem execRet_alikeUpToSt (s : State) (b : Byte) :
    AlikeUpToSt (execRet s) (execRet (s.setSt b)) := by
  unfold execRet
  rw [pop_setSt]
  cases s.pop with
  | some popped => exact alikeUpToSt_next _ b
  | none => exact alikeUpToSt_next _ b

theorem skipOnKey_alikeUpToSt (x : Reg) (pressed : Bool) (s : State) (b : Byte) :
    AlikeUpToSt (skipOnKey x pressed s) (skipOnKey x pressed (s.setSt b)) := by
  unfold skipOnKey
  rw [State.getV_setSt]
  split
  · exact complete_alikeUpToSt _ b
  · exact alikeUpToSt_fault _

theorem execLdVxK_alikeUpToSt (x : Reg) (s : State) (b : Byte) :
    AlikeUpToSt (execLdVxK x s) (execLdVxK x (s.setSt b)) := by
  have hk : (s.setSt b).anyKey = s.anyKey := rfl
  unfold execLdVxK
  rw [hk]
  split
  · exact completeNext_alikeUpToSt _ b
  · exact complete_alikeUpToSt _ b

theorem storeAtIndex_alikeUpToSt (bytes : List Byte) (s : State) (b : Byte) :
    AlikeUpToSt (storeAtIndex bytes s) (storeAtIndex bytes (s.setSt b)) :=
  (completeNext_alikeUpToSt _ b).checked _

theorem execDrw_alikeUpToSt (x y : Reg) (n : Nat) (s : State) (b : Byte) :
    AlikeUpToSt (execDrw x y n s) (execDrw x y n (s.setSt b)) :=
  (completeNext_alikeUpToSt _ b).checked _

theorem execLdLoad_alikeUpToSt (x : Reg) (s : State) (b : Byte) :
    AlikeUpToSt (execLdLoad x s) (execLdLoad x (s.setSt b)) :=
  (completeNext_alikeUpToSt (loadRegs s x s.indexAddress) b).checked
    (firstFault readFault s.indexAddress (x.val + 1))

/-- No instruction reads ST (R37). -/
theorem exec_alikeUpToSt (i : Instr) (s : State) (b : Byte) :
    AlikeUpToSt (exec i s) (exec i (s.setSt b)) := by
  cases i with
  | ret => exact execRet_alikeUpToSt s b
  | call nnn => exact execCall_alikeUpToSt nnn s b
  | skp x => exact skipOnKey_alikeUpToSt x true s b
  | sknp x => exact skipOnKey_alikeUpToSt x false s b
  | ldVxK x => exact execLdVxK_alikeUpToSt x s b
  | drw x y n => exact execDrw_alikeUpToSt x y n s b
  | ldB x => exact storeAtIndex_alikeUpToSt (decimalDigits (s.getV x)) s b
  | ldStore x => exact storeAtIndex_alikeUpToSt (regBytes s x) s b
  | ldLoad x => exact execLdLoad_alikeUpToSt x s b
  | jp | jpV0 | seImm | sneImm | seReg | sneReg => exact complete_alikeUpToSt _ b
  | ldSt x => exact completeNext_alikeUpToSt (s.setSt (s.getV x)) (s.getV x)
  | _ => exact completeNext_alikeUpToSt _ b

theorem step_alikeUpToSt (s : State) (b : Byte) : AlikeUpToSt (step s) (step (s.setSt b)) := by
  have hw : fetchWord (s.setSt b) = fetchWord s := rfl
  have hf : fetchFault (s.setSt b) = fetchFault s := rfl
  unfold step
  rw [State.setSt_fault, hw, hf]
  cases s.fault with
  | some f => exact alikeUpToSt_fault f
  | none =>
    refine AlikeUpToSt.checked ?_ _
    cases decode (fetchWord s) with
    | instr i => exact exec_alikeUpToSt i s b
    | unsupported w => exact alikeUpToSt_next _ b

/-- Settles O45: `step_alikeUpToSt` at the state with ST replaced. -/
theorem soundTimerDoesNotInfluenceAStep : Obligations.SoundTimerDoesNotInfluenceAStep := by
  unfold Obligations.SoundTimerDoesNotInfluenceAStep
  exact step_alikeUpToSt

end Sys2Proof.Machine

/-! PROOFS. The memory family (20_memory.md): the fault of an access through I that leaves memory or meets
the font, what the fetch after a store reads, and the writers of memory, I, the framebuffer and the
timers. -/

namespace Sys2Proof.Machine

/-! ## The lowest failing address of an access through I -/

theorem readFault_past_memory {a : Nat} (h : 4096 ≤ a) : readFault a = some (.undefinedAccess a) :=
  if_pos h

theorem writeFault_in_font {a : Nat} (h : a < 0x50) : writeFault a = some (.fontOverwrite a) :=
  if_pos h

theorem writeFault_past_font {a : Nat} (h : 0x50 ≤ a) : writeFault a = readFault a :=
  if_neg (Nat.not_lt.2 h)

/-- A run of reads that leaves memory reports its first address that does not exist (R62, R304). -/
theorem firstFault_read_past_memory {a n : Nat} (hn : 0 < n) (h : 4096 < a + n) :
    firstFault readFault a n = some (.undefinedAccess (max a 4096)) := by
  refine firstFault_eq_some.2 ⟨max a 4096 - a, by omega, ?_, fun k hk => readFault_eq_none.2 (by omega)⟩
  rw [Nat.add_sub_cancel' (le_max_left a 4096)]
  exact readFault_past_memory (le_max_right a 4096)

/-- Above the font a run of writes is checked as a run of reads (R62, R63). -/
theorem firstFault_write_eq_read {a : Nat} (h : 0x50 ≤ a) (n : Nat) :
    firstFault writeFault a n = firstFault readFault a n := by
  induction n generalizing a with
  | zero => rfl
  | succ n ih => simp only [firstFault, writeFault_past_font h, ih (Nat.le_succ_of_le h)]

/-- A run of writes that begins in the font reports its first address (R63, R304). -/
theorem firstFault_write_in_font {a n : Nat} (hn : 0 < n) (h : a < 0x50) :
    firstFault writeFault a n = some (.fontOverwrite a) :=
  firstFault_eq_some.2 ⟨0, hn, writeFault_in_font h, fun _ hk => absurd hk (Nat.not_lt_zero _)⟩

theorem checked_of_eq_some {c : Option Fault} {f : Fault} (h : c = some f) (go : Result) :
    checked c go = .fault f := by rw [h]; rfl

theorem storeAtIndex_in_font {bytes : List Byte} {s : State} (hb : 0 < bytes.length)
    (h : s.i.toNat < 0x50) : storeAtIndex bytes s = .fault (.fontOverwrite s.i.toNat) :=
  checked_of_eq_some (firstFault_write_in_font hb h) _

theorem storeAtIndex_past_memory {bytes : List Byte} {s : State} (hb : 0 < bytes.length)
    (low : 0x50 ≤ s.i.toNat) (high : 4096 < s.i.toNat + bytes.length) :
    storeAtIndex bytes s = .fault (.undefinedAccess (max s.i.toNat 4096)) :=
  checked_of_eq_some
    ((firstFault_write_eq_read low _).trans (firstFault_read_past_memory hb high)) _

theorem execLdLoad_past_memory {x : Reg} {s : State} (h : 4096 ≤ s.i.toNat + x.val) :
    execLdLoad x s = .fault (.undefinedAccess (max s.i.toNat 4096)) :=
  checked_of_eq_some (firstFault_read_past_memory (Nat.succ_pos _) (Nat.lt_succ_of_le h)) _

theorem execDrw_past_memory {x y : Reg} {n : Nat} {s : State} (hn : 0 < n)
    (h : 4096 < s.i.toNat + n) :
    execDrw x y n s = .fault (.undefinedAccess (max s.i.toNat 4096)) :=
  checked_of_eq_some (firstFault_read_past_memory hn h) _

/-- Settles O36: each access is a run of checks from I on, and `firstFault` reports the first failure. -/
theorem accessThroughIndexFaultsAtLowestAddress :
    Obligations.AccessThroughIndexFaultsAtLowestAddress := by
  unfold Obligations.AccessThroughIndexFaultsAtLowestAddress
  intro x y n s
  have hdigits : 0 < (decimalDigits (s.getV x)).length := by simp
  have hregs : 0 < (regBytes s x).length := by simp
  refine ⟨fun font => ⟨?bcdFont, ?storeFont⟩, fun low high => ?bcd, fun low high => ?store,
    fun high => ?load, fun hn _ high => ?draw⟩
  case bcdFont => exact storeAtIndex_in_font hdigits font
  case storeFont => exact storeAtIndex_in_font hregs font
  case bcd => exact storeAtIndex_past_memory hdigits low (by rw [decimalDigits_length]; omega)
  case store => exact storeAtIndex_past_memory hregs low (by rw [regBytes_length]; omega)
  case load => exact execLdLoad_past_memory high
  case draw => exact execDrw_past_memory hn (by omega)

/-! ## The fetch after a store -/

@[simp] theorem highByte_fetchWord (s : State) : highByte (fetchWord s) = s.mem.read s.pc.toNat :=
  highByte_wordOfBytes _ _

@[simp] theorem lowByte_fetchWord (s : State) : lowByte (fetchWord s) = s.mem.read (s.pc.toNat + 1) :=
  lowByte_wordOfBytes _ _

/-- After a store through I that completes, each stored byte is read back at its address, and pc is past
the instruction. -/
theorem storeAtIndex_read {bytes : List Byte} {s t : State} (h : storeAtIndex bytes s = .next t)
    {j : Nat} (hj : j < bytes.length) :
    s.i.toNat + j < 4096 ∧ t.pc = s.pc + 2 ∧ t.mem.read (s.i.toNat + j) = bytes[j] := by
  obtain ⟨⟨-, high⟩, rfl⟩ := (storeAtIndex_eq_next (Nat.zero_lt_of_lt hj)).1 h
  exact ⟨by omega, rfl, Memory.read_writeBytes_inside bytes s.mem s.i.toNat j hj⟩

/-- A byte stored into the next word is that byte of the next fetch (R73). A stored address exists, so
pc + 2 does not wrap where the store meets it. -/
theorem fetchWord_after_storeAtIndex {bytes : List Byte} {s t : State}
    (h : storeAtIndex bytes s = .next t) {j : Nat} (hj : j < bytes.length) :
    (s.pc.toNat + 2 = s.i.toNat + j → highByte (fetchWord t) = bytes[j]) ∧
    (s.pc.toNat + 3 = s.i.toNat + j → lowByte (fetchWord t) = bytes[j]) := by
  obtain ⟨inMemory, hpc, hread⟩ := storeAtIndex_read h hj
  constructor
  · intro e
    have : t.pc.toNat = s.i.toNat + j := by rw [hpc]; bv_omega
    rw [highByte_fetchWord, this, hread]
  · intro e
    have : t.pc.toNat + 1 = s.i.toNat + j := by rw [hpc]; bv_omega
    rw [lowByte_fetchWord, this, hread]

/-- Settles O37: both instructions store through I, V0 to Vx the one, the digits of Vx the other. -/
theorem storeIsSeenByTheNextFetch : Obligations.StoreIsSeenByTheNextFetch := by
  unfold Obligations.StoreIsSeenByTheNextFetch
  refine fun x s t => ⟨fun h j hj => ?regs, fun h j hj => ?digits⟩
  case regs =>
    have hlt : j.val < (regBytes s x).length := by simpa using Nat.lt_succ_of_le hj
    rw [← regBytes_getElem s x j hlt]
    exact fetchWord_after_storeAtIndex h hlt
  case digits =>
    obtain ⟨first, second⟩ := fetchWord_after_storeAtIndex h (j := j) hj
    rw [← decimalDigits_getElem_toNat (s.getV x) j hj]
    exact ⟨fun e => congrArg _ (first e), fun e => congrArg _ (second e)⟩

/-! ## The writers of memory, I, the framebuffer and the timers -/

/-- Settles O55, by the effect of the instruction. -/
theorem memoryIndexScreenAndTimersHaveTheirWriters :
    Obligations.MemoryIndexScreenAndTimersHaveTheirWriters := by
  unfold Obligations.MemoryIndexScreenAndTimersHaveTheirWriters
  intro i s t h
  cases exec_effect h with
  | store bytes writer =>
    obtain ⟨x, hi⟩ := writer
    exact ⟨fun no => absurd hi (by simp [no x]), fun _ => rfl, fun _ => rfl, fun _ => rfl, fun _ => rfl⟩
  | index a writer =>
    obtain ⟨nnn, x, hi⟩ := writer
    exact ⟨fun _ _ => rfl, fun no => absurd hi (by simp [no x nnn]), fun _ => rfl, fun _ => rfl,
      fun _ => rfl⟩
  | clear =>
    exact ⟨fun _ _ => rfl, fun _ => rfl, fun no => absurd rfl (no 0 0 0).1, fun _ => rfl, fun _ => rfl⟩
  | draw x y n =>
    exact ⟨fun _ _ => rfl, fun _ => rfl, fun no => absurd rfl (no x y n).2, fun _ => rfl, fun _ => rfl⟩
  | delayTimer x =>
    exact ⟨fun _ _ => rfl, fun _ => rfl, fun _ => rfl, fun no => absurd rfl (no x), fun _ => rfl⟩
  | soundTimer x =>
    exact ⟨fun _ _ => rfl, fun _ => rfl, fun _ => rfl, fun _ => rfl, fun no => absurd rfl (no x)⟩
  | _ => exact ⟨fun _ _ => rfl, fun _ => rfl, fun _ => rfl, fun _ => rfl, fun _ => rfl⟩

end Sys2Proof.Machine

/-! PROOFS. The encoding family (30_encoding.md): decode and encode are inverse to each other up to the
ignored bits, the opcode table's rows, the unsupported words, and the cycle step that decodes. -/

namespace Sys2Proof

/-! ## Decoding an encoded word -/

/-- Decoding the word of an encodable instruction gives it back (R92, R94). -/
theorem decode_encode {i : Instr} (hwf : i.wellFormed = true) : decode (encode i) = .instr i := by
  cases i with
  | jp nnn | call nnn | ldI nnn | jpV0 nnn =>
    have hn : nnn < 0x1000 := of_decide_eq_true hwf
    simp [encode, decode, Nat.mod_eq_of_lt hn]
  | drw x y n =>
    have hn : n < 16 := of_decide_eq_true hwf
    simp [encode, decode, Nat.mod_eq_of_lt hn]
  | cls | ret => simp [encode, decode, decodeFamily0]
  | ldReg | orReg | andReg | xorReg | addReg | subReg | shr | subnReg | shl =>
    simp [encode, decode, decodeFamily8]
  | skp | sknp => simp [encode, decode, decodeFamilyE]
  | ldVxDt | ldVxK | ldDt | ldSt | addI | ldF | ldB | ldStore | ldLoad =>
    simp [encode, decode, decodeFamilyF]
  | _ => simp [encode, decode]

/-- The head of a byte string is decoded, whatever follows (R65, R98). -/
theorem decodeBytes_eq_ok {hi lo : Byte} {rest : List Byte} {i : Instr} :
    decodeBytes (hi :: lo :: rest) = .ok (i, rest) ↔ decode (wordOfBytes hi lo) = .instr i := by
  rw [decodeBytes]
  cases decode (wordOfBytes hi lo) <;> simp

theorem decodeBytes_eq_unsupported {hi lo : Byte} {rest : List Byte} {w : Word} :
    decodeBytes (hi :: lo :: rest) = .error (.unsupportedOpcode w) ↔
      decode (wordOfBytes hi lo) = .unsupported w := by
  rw [decodeBytes]
  cases decode (wordOfBytes hi lo) <;> simp

/-- Settles O1: the word by `decode_encode`, its bytes because they make up the word. -/
theorem decodeOfEncodeGivesTheInstruction : Obligations.DecodeOfEncodeGivesTheInstruction := by
  unfold Obligations.DecodeOfEncodeGivesTheInstruction
  intro i rest hwf
  refine ⟨decode_encode hwf, decodeBytes_eq_ok.2 ?_⟩
  rw [wordOfBytes_bytes]
  exact decode_encode hwf

/-! ## A word from its fields, format by format -/

theorem regBits_zero : regBits 0 = 0#4 := rfl

theorem regBits_fieldX (w : Word) : regBits (fieldX w) = w.extractLsb' 8 4 := rfl

theorem regBits_fieldY (w : Word) : regBits (fieldY w) = w.extractLsb' 4 4 := rfl

section WordFromFields
variable {w : Word} {op : BitVec 4}

theorem and_allOnes_eq_formatA (hop : fieldOp w = op) :
    w &&& 0xFFFF = formatA op (fieldNnn w).toNat := by
  subst hop
  rw [formatA, BitVec.ofNat_toNat, BitVec.setWidth_eq]
  refine BitVec.eq_of_getLsbD_eq fun i hi => ?_
  simp only [fieldOp, fieldNnn, BitVec.getLsbD_and, BitVec.getLsbD_append, BitVec.getLsbD_extractLsb']
  interval_cases i <;> simp

theorem and_allOnes_eq_formatXK {kk : Byte} (hop : fieldOp w = op) (hkk : fieldKk w = kk) :
    w &&& 0xFFFF = formatXK op (fieldX w) kk := by
  subst hop hkk
  rw [formatXK, regBits_fieldX]
  refine BitVec.eq_of_getLsbD_eq fun i hi => ?_
  simp only [fieldOp, fieldKk, BitVec.getLsbD_and, BitVec.getLsbD_append, BitVec.getLsbD_extractLsb']
  interval_cases i <;> simp

theorem and_allOnes_eq_formatXYN {n : BitVec 4} (hop : fieldOp w = op) (hn : fieldN w = n) :
    w &&& 0xFFFF = formatXYN op (fieldX w) (fieldY w) n := by
  subst hop hn
  rw [formatXYN, regBits_fieldX, regBits_fieldY]
  refine BitVec.eq_of_getLsbD_eq fun i hi => ?_
  simp only [fieldOp, fieldN, BitVec.getLsbD_and, BitVec.getLsbD_append, BitVec.getLsbD_extractLsb']
  interval_cases i <;> simp

theorem and_clear_x_eq_formatXK {kk : Byte} (hop : fieldOp w = op) (hkk : fieldKk w = kk) :
    w &&& 0xF0FF = formatXK op 0 kk := by
  subst hop hkk
  rw [formatXK, regBits_zero]
  refine BitVec.eq_of_getLsbD_eq fun i hi => ?_
  simp only [fieldOp, fieldKk, BitVec.getLsbD_and, BitVec.getLsbD_append, BitVec.getLsbD_extractLsb']
  interval_cases i <;> simp

theorem and_clear_y_eq_formatXYN {n : BitVec 4} (hop : fieldOp w = op) (hn : fieldN w = n) :
    w &&& 0xFF0F = formatXYN op (fieldX w) 0 n := by
  subst hop hn
  rw [formatXYN, regBits_fieldX, regBits_zero]
  refine BitVec.eq_of_getLsbD_eq fun i hi => ?_
  simp only [fieldOp, fieldN, BitVec.getLsbD_and, BitVec.getLsbD_append, BitVec.getLsbD_extractLsb']
  interval_cases i <;> simp

theorem and_clear_n_eq_formatXYN (hop : fieldOp w = op) :
    w &&& 0xFFF0 = formatXYN op (fieldX w) (fieldY w) 0 := by
  subst hop
  rw [formatXYN, regBits_fieldX, regBits_fieldY]
  refine BitVec.eq_of_getLsbD_eq fun i hi => ?_
  simp only [fieldOp, BitVec.getLsbD_and, BitVec.getLsbD_append, BitVec.getLsbD_extractLsb']
  interval_cases i <;> simp

end WordFromFields

/-! ## Encoding a decoded word -/

theorem decodeFamily0_reencodes {w : Word} {i : Instr} (hop : fieldOp w = 0x0)
    (h : decodeFamily0 w = .instr i) : w &&& i.careBits = encode i := by
  unfold decodeFamily0 at h
  split at h <;> cases h <;> exact and_clear_x_eq_formatXK hop ‹_›

/-- In family 8 the seventh and the ninth arm, SHR and SHL, ignore y (R97). -/
theorem decodeFamily8_reencodes {w : Word} {i : Instr} (hop : fieldOp w = 0x8)
    (h : decodeFamily8 w = .instr i) : w &&& i.careBits = encode i := by
  unfold decodeFamily8 at h
  split at h
  case h_7 | h_9 => cases h; exact and_clear_y_eq_formatXYN hop ‹_›
  all_goals cases h <;> exact and_allOnes_eq_formatXYN hop ‹_›

theorem decodeFamilyE_reencodes {w : Word} {i : Instr} (hop : fieldOp w = 0xE)
    (h : decodeFamilyE w = .instr i) : w &&& i.careBits = encode i := by
  unfold decodeFamilyE at h
  split at h <;> cases h <;> exact and_allOnes_eq_formatXK hop ‹_›

theorem decodeFamilyF_reencodes {w : Word} {i : Instr} (hop : fieldOp w = 0xF)
    (h : decodeFamilyF w = .instr i) : w &&& i.careBits = encode i := by
  unfold decodeFamilyF at h
  split at h <;> cases h <;> exact and_allOnes_eq_formatXK hop ‹_›

/-- A decoded word, its ignored bits cleared, is the encoding of what it decodes to (R97). -/
theorem and_careBits_of_decode {w : Word} {i : Instr} (h : decode w = .instr i) :
    w &&& i.careBits = encode i := by
  unfold decode at h
  split at h
  · exact decodeFamily0_reencodes ‹_› h
  · cases h; exact and_allOnes_eq_formatA ‹_›
  · cases h; exact and_allOnes_eq_formatA ‹_›
  · cases h; exact and_allOnes_eq_formatXK ‹_› rfl
  · cases h; exact and_allOnes_eq_formatXK ‹_› rfl
  · cases h; exact and_clear_n_eq_formatXYN ‹_›
  · cases h; exact and_allOnes_eq_formatXK ‹_› rfl
  · cases h; exact and_allOnes_eq_formatXK ‹_› rfl
  · exact decodeFamily8_reencodes ‹_› h
  · cases h; exact and_clear_n_eq_formatXYN ‹_›
  · cases h; exact and_allOnes_eq_formatA ‹_›
  · cases h; exact and_allOnes_eq_formatA ‹_›
  · cases h; exact and_allOnes_eq_formatXK ‹_› rfl
  · cases h; exact (and_allOnes_eq_formatXYN ‹_› rfl).trans (by simp [encode])
  · exact decodeFamilyE_reencodes ‹_› h
  · exact decodeFamilyF_reencodes (by simp only [imp_false] at *; bv_omega) h

/-- Settles O2: the operands fit by `decode_wellFormed`, and the word is put together from its fields. -/
theorem decodedInstructionReencodesToItsWord : Obligations.DecodedInstructionReencodesToItsWord := by
  unfold Obligations.DecodedInstructionReencodesToItsWord
  exact fun w i h => ⟨decode_wellFormed h, and_careBits_of_decode h⟩

/-! ## The rows of the opcode table -/

@[simp] theorem fieldOp_and (a b : Word) : fieldOp (a &&& b) = fieldOp a &&& fieldOp b :=
  BitVec.extractLsb'_and ..

@[simp] theorem fieldN_and (a b : Word) : fieldN (a &&& b) = fieldN a &&& fieldN b :=
  BitVec.extractLsb'_and ..

@[simp] theorem fieldKk_and (a b : Word) : fieldKk (a &&& b) = fieldKk a &&& fieldKk b :=
  BitVec.extractLsb'_and ..

/-- The encoding of an instruction is a word of its row (R94). -/
theorem encode_and_maskBits (i : Instr) : encode i &&& i.maskBits = i.matchBits := by
  cases i with
  | jp | call | ldI | jpV0 => exact Laws.FixedBits.formatA_mask _ _
  | seImm | sneImm | ldImm | addImm | rnd => exact Laws.FixedBits.formatXK_mask_op _ _ _
  | seReg | sneReg | drw => exact Laws.FixedBits.formatXYN_mask_op _ _ _ _
  | ldReg | orReg | andReg | xorReg | addReg | subReg | shr | subnReg | shl =>
    exact Laws.FixedBits.formatXYN_mask_low _ _ _ _
  | cls | ret | skp | sknp | ldVxDt | ldVxK | ldDt | ldSt | addI | ldF | ldB | ldStore | ldLoad =>
    exact Laws.FixedBits.formatXK_mask_low _ _ _

/-- No bit of the mask is ignored. -/
theorem careBits_and_maskBits (i : Instr) : i.careBits &&& i.maskBits = i.maskBits := by
  cases i with
  | cls | ret => exact BitVec.and_self
  | seReg | sneReg => show (0xFFF0 : Word) &&& 0xF000 = 0xF000; rfl
  | shr | shl => show (0xFF0F : Word) &&& 0xF00F = 0xF00F; rfl
  | _ => exact BitVec.allOnes_and

/-- A word that agrees with an encoding on the bits its instruction does not ignore is of its row. -/
theorem row_of_and_careBits {w : Word} {i : Instr} (h : w &&& i.careBits = encode i) :
    w &&& i.maskBits = i.matchBits := by
  rw [← careBits_and_maskBits i, ← BitVec.and_assoc, h, encode_and_maskBits]

theorem fieldOp_maskBits (j : Instr) : fieldOp j.maskBits = BitVec.allOnes 4 := by
  cases j <;> simp [Instr.maskBits, fieldOp]

section Row
variable {w v : Word} {j : Instr}

theorem fieldOp_of_row (h : w &&& j.maskBits = v) : fieldOp w = fieldOp v := by
  rw [← h, fieldOp_and, fieldOp_maskBits, BitVec.and_allOnes]

theorem fieldN_of_row (hmask : j.maskBits = 0xF00F) (h : w &&& j.maskBits = v) :
    fieldN w = fieldN v := by
  rw [← h, hmask, fieldN_and]
  exact BitVec.and_allOnes.symm

theorem fieldKk_of_row (hmask : j.maskBits = 0xF0FF) (h : w &&& j.maskBits = v) :
    fieldKk w = fieldKk v := by
  rw [← h, hmask, fieldKk_and]
  exact BitVec.and_allOnes.symm

/-- Every word a row selects decodes to an instruction of that row (R94, R95). -/
theorem decode_of_row (h : w &&& j.maskBits = j.matchBits) :
    ∃ i, decode w = .instr i ∧ i.matchBits = j.matchBits := by
  cases j with
  | cls | ret =>
    rw [Instr.matchBits] at h
    rw [decode, fieldOp_of_row h, decodeFamily0, fieldKk_of_row rfl h]
    exact ⟨_, rfl, rfl⟩
  | ldReg | orReg | andReg | xorReg | addReg | subReg | shr | subnReg | shl =>
    rw [Instr.matchBits] at h
    rw [decode, fieldOp_of_row h, decodeFamily8, fieldN_of_row rfl h]
    exact ⟨_, rfl, rfl⟩
  | skp | sknp =>
    rw [Instr.matchBits] at h
    rw [decode, fieldOp_of_row h, decodeFamilyE, fieldKk_of_row rfl h]
    exact ⟨_, rfl, rfl⟩
  | ldVxDt | ldVxK | ldDt | ldSt | addI | ldF | ldB | ldStore | ldLoad =>
    rw [Instr.matchBits] at h
    rw [decode, fieldOp_of_row h, decodeFamilyF, fieldKk_of_row rfl h]
    exact ⟨_, rfl, rfl⟩
  | _ =>
    rw [Instr.matchBits] at h
    rw [decode, fieldOp_of_row h]
    exact ⟨_, rfl, rfl⟩

end Row

/-- Settles O3: a decoded word agrees with its encoding on the mask, and a row's word has the row's
fields. -/
theorem decodeSelectsTheMatchingTableRow : Obligations.DecodeSelectsTheMatchingTableRow := by
  unfold Obligations.DecodeSelectsTheMatchingTableRow
  exact ⟨fun w i h => row_of_and_careBits (and_careBits_of_decode h), fun w j h => decode_of_row h⟩

/-! ## The ignored bits -/

/-- The bits an instruction does not ignore, by its row's match value (R97). -/
def careBitsOfRow (m : Word) : Word :=
  if m = 0x00E0 ∨ m = 0x00EE then 0xF0FF
  else if m = 0x5000 ∨ m = 0x9000 then 0xFFF0
  else if m = 0x8006 ∨ m = 0x800E then 0xFF0F
  else 0xFFFF

theorem careBits_eq_careBitsOfRow (i : Instr) : i.careBits = careBitsOfRow i.matchBits := by
  cases i <;> rfl

/-- An encodable instruction is the only one with its encoding. -/
theorem encode_injective {i j : Instr} (hi : i.wellFormed = true) (hj : j.wellFormed = true)
    (h : encode i = encode j) : i = j := by
  have : Decoded.instr i = .instr j := by rw [← decode_encode hi, h, decode_encode hj]
  cases this
  rfl

/-- A word that agrees with an encoding on the bits the instruction does not ignore decodes to it: it is
of the instruction's row, and what it decodes to has the same encoding (R97). -/
theorem decode_of_and_careBits {w : Word} {i : Instr} (hwf : i.wellFormed = true)
    (h : w &&& i.careBits = encode i) : decode w = .instr i := by
  obtain ⟨j, hj, hrow⟩ := decode_of_row (row_of_and_careBits h)
  have hcare : j.careBits = i.careBits := by
    rw [careBits_eq_careBitsOfRow, hrow, ← careBits_eq_careBitsOfRow]
  have hencode : encode j = encode i := by rw [← and_careBits_of_decode hj, hcare, h]
  rw [hj, encode_injective (decode_wellFormed hj) hwf hencode]

/-- Settles O5: the other word agrees with the encoding of the instruction too. -/
theorem ignoredBitsDoNotChangeTheInstruction : Obligations.IgnoredBitsDoNotChangeTheInstruction := by
  unfold Obligations.IgnoredBitsDoNotChangeTheInstruction
  exact fun w w' i hi h =>
    decode_of_and_careBits (decode_wellFormed hi) (h.trans (and_careBits_of_decode hi))

/-! ## The unsupported words -/

theorem decodeFamily0_unsupported_iff (w : Word) :
    decodeFamily0 w = .unsupported w ↔ fieldKk w ≠ 0xE0 ∧ fieldKk w ≠ 0xEE := by
  unfold decodeFamily0
  split
  · next h => simp [h]
  · next h => simp [h]
  · next h h' => exact iff_of_true rfl ⟨h, h'⟩

theorem decodeFamily8_unsupported_iff (w : Word) :
    decodeFamily8 w = .unsupported w ↔ fieldN w ∈ [0x8, 0x9, 0xA, 0xB, 0xC, 0xD, 0xF] := by
  unfold decodeFamily8
  split
  case h_10 =>
    simp only [imp_false, true_iff, List.mem_cons, List.not_mem_nil, or_false] at *
    bv_omega
  all_goals simp [*]

theorem decodeFamilyE_unsupported_iff (w : Word) :
    decodeFamilyE w = .unsupported w ↔ fieldKk w ≠ 0x9E ∧ fieldKk w ≠ 0xA1 := by
  unfold decodeFamilyE
  split
  · next h => simp [h]
  · next h => simp [h]
  · next h h' => exact iff_of_true rfl ⟨h, h'⟩

theorem decodeFamilyF_unsupported_iff (w : Word) :
    decodeFamilyF w = .unsupported w ↔
      fieldKk w ∉ [0x07, 0x0A, 0x15, 0x18, 0x1E, 0x29, 0x33, 0x55, 0x65] := by
  unfold decodeFamilyF
  split
  case h_10 => simp_all
  all_goals simp [*]

/-- Settles O4: the families with no sub-operation support every word, and each other has its own `iff`. -/
theorem unsupportedWordsByFamily : Obligations.UnsupportedWordsByFamily := by
  unfold Obligations.UnsupportedWordsByFamily
  intro w
  rw [← decodeFamily0_unsupported_iff, ← decodeFamily8_unsupported_iff, ← decodeFamilyE_unsupported_iff,
    ← decodeFamilyF_unsupported_iff]
  unfold decode
  split
  case h_16 =>
    have hop : fieldOp w = 0xF := by simp only [imp_false] at *; bv_omega
    simp [hop]
  all_goals simp [*]

/-- The unsupported word the decoder names is the one it read (R96). -/
theorem eq_of_decode_unsupported {w u : Word} (h : decode w = .unsupported u) : u = w := by
  unfold decode decodeFamily0 decodeFamily8 decodeFamilyE decodeFamilyF at h
  repeat' split at h
  all_goals cases h <;> rfl

/-- Settles O6, by evaluation. -/
theorem listedWordsDecodeAsTheSpecLists : Obligations.ListedWordsDecodeAsTheSpecLists := by
  unfold Obligations.ListedWordsDecodeAsTheSpecLists
  exact ⟨rfl, rfl, rfl, rfl, rfl, rfl, rfl, rfl, rfl, rfl, rfl⟩

end Sys2Proof

namespace Sys2Proof.Machine

/-! ## The cycle step -/

theorem fetchFault_past_memory {s : State} (h : s.pc.toNat > 0xFFE) :
    fetchFault s = some (.undefinedAccess (max s.pc.toNat 4096)) := by
  rw [fetchFault, if_pos h]
  congr 2
  split <;> omega

/-- With no fault set and pc in range, a step runs what the fetched word decodes to (R101). -/
theorem step_of_instr {s : State} {i : Instr} (hfault : s.fault = none) (hpc : s.pc.toNat ≤ 0xFFE)
    (h : decode (fetchWord s) = .instr i) : step s = exec i s := by
  rw [step, hfault, fetchFault_eq_none.2 hpc, h]
  rfl

theorem step_of_unsupported {s : State} {w : Word} (hfault : s.fault = none) (hpc : s.pc.toNat ≤ 0xFFE)
    (h : decode (fetchWord s) = .unsupported w) :
    step s = .next (s.advance.log (.unsupportedOpcode w s.pc)) := by
  rw [step, hfault, fetchFault_eq_none.2 hpc, h]
  rfl

/-- Settles O7: the fetched word is the two bytes at pc. -/
theorem stepRunsTheDecodedInstruction : Obligations.StepRunsTheDecodedInstruction := by
  unfold Obligations.StepRunsTheDecodedInstruction
  exact fun s i hfault hpc h => step_of_instr hfault hpc (decodeBytes_eq_ok.1 h)

/-- Settles O9: the range check of the fetch comes first. -/
theorem fetchPastMemoryFaults : Obligations.FetchPastMemoryFaults := by
  unfold Obligations.FetchPastMemoryFaults
  intro s hfault hpc
  rw [step, hfault]
  exact checked_of_eq_some (fetchFault_past_memory hpc) _

theorem changesOnly_advance_log (s : State) (d : Diag) : ChangesOnly [] s (s.advance.log d) :=
  ⟨fun _ _ => rfl, fun _ => rfl, ⟨rfl, rfl, rfl, rfl, rfl, rfl, rfl, rfl, rfl, rfl, rfl⟩⟩

/-- Settles O10: the report is of the fetched word, and it only moves pc. -/
theorem unsupportedWordIsReportedAndSkipped : Obligations.UnsupportedWordIsReportedAndSkipped := by
  unfold Obligations.UnsupportedWordIsReportedAndSkipped
  intro s w hfault hpc h
  have hdecode : decode (fetchWord s) = .unsupported w := decodeBytes_eq_unsupported.1 h
  refine ⟨?word, _, step_of_unsupported hfault hpc hdecode, rfl, rfl, changesOnly_advance_log s _⟩
  case word =>
    rw [eq_of_decode_unsupported hdecode]
    exact wordOfBytes_toNat _ _

/-! ## A placed word -/

section WithFetchWord
variable (s : State) (w : Nat)

theorem withFetchWord_pc_le : (s.withFetchWord 16 w).pc.toNat ≤ 0xFFE := by
  unfold State.withFetchWord
  dsimp only
  split
  · decide
  · omega

/-- The word fetched after placing a word is that word (R65, log 27). -/
theorem fetchWord_withFetchWord : fetchWord (s.withFetchWord 16 w) = tableWord 16 w := by
  have hmem : (s.withFetchWord 16 w).mem =
      s.mem.writeBytes (s.withFetchWord 16 w).pc.toNat (tableBytes 16 w) := rfl
  rw [fetchWord, hmem]
  simp [Memory.read_writeBytes, tableBytes]

end WithFetchWord

theorem decode_of_decodeTableWord {w : Nat} {i : Instr} (h : decodeTableWord 16 w = some i) :
    decode (tableWord 16 w) = .instr i := by
  rw [decodeTableWord, tableBytes, decodeBytes, wordOfBytes_bytes] at h
  cases hd : decode (tableWord 16 w) with
  | instr j => rw [hd] at h; cases h; rfl
  | unsupported u => rw [hd] at h; cases h

/-- Settles O8: the placed word is the one fetched. -/
theorem placedWordRunsNext : Obligations.PlacedWordRunsNext := by
  unfold Obligations.PlacedWordRunsNext
  intro s w i h
  refine step_of_instr rfl (withFetchWord_pc_le s w) ?_
  rw [fetchWord_withFetchWord]
  exact decode_of_decodeTableWord h

end Sys2Proof.Machine

/-! PROOFS. The control-flow family (40_control_flow.md): where JP, JP V0, CALL, RET and the register skips
take pc, what CALL and RET do to the stack, and the round trip of the two. -/

namespace Sys2Proof.Machine

/-- Setting pc and ending the cycle writes nothing else; `advance` and `skipIf` are two such settings. -/
theorem changesOnly_setPc_log (s : State) (a : Word) (d : Diag) :
    ChangesOnly [] s ((s.setPc a).log d) :=
  ⟨fun _ _ => rfl, fun _ => rfl, ⟨rfl, rfl, rfl, rfl, rfl, rfl, rfl, rfl, rfl, rfl, rfl⟩⟩

/-! ## Jumps -/

/-- An address that has an encoding is not changed by its zero-extension (R93). -/
theorem addressOperand_toNat {nnn : Nat} (h : nnn < 0x1000) : (addressOperand nnn).toNat = nnn :=
  Nat.mod_eq_of_lt (by omega)

/-- The sum of R137 is at most 0x10FE, so it does not wrap (R35). -/
theorem addressOperand_add_zext16_toNat {nnn : Nat} (h : nnn < 0x1000) (b : Byte) :
    (addressOperand nnn + zext16 b).toNat = nnn + b.toNat := by
  rw [addressOperand_add_zext16]
  exact Nat.mod_eq_of_lt (by omega)

/-- Settles O26: neither target wraps. -/
theorem jumpsSetPc : Obligations.JumpsSetPc := by
  unfold Obligations.JumpsSetPc
  intro nnn s hn
  exact ⟨⟨_, rfl, addressOperand_toNat hn, rfl, changesOnly_setPc_log s _ _⟩,
    ⟨_, rfl, addressOperand_add_zext16_toNat hn (s.getV 0), rfl, changesOnly_setPc_log s _ _⟩⟩

/-! ## Call and return -/

/-- The state CALL leaves when it has a free slot (R131). -/
theorem exec_call_of_free (nnn : Nat) {s : State} (free : s.sp.val < 16) :
    exec (.call nnn) s = .next ((State.setPc { s with
      stack := s.stack.set s.sp.val s.pc, sp := ⟨s.sp.val + 1, by omega⟩ }
      (addressOperand nnn)).log .none) := by
  obtain ⟨_, hp⟩ | ⟨full, -⟩ := push_cases s s.pc
  · simp only [exec, execCall, hp, complete_eq]
  · simp [full] at free

theorem exec_call_of_full (nnn : Nat) {s : State} (full : s.sp = 16) :
    exec (.call nnn) s = .next (s.advance.log .stackOverflow) := by
  obtain ⟨free, -⟩ | ⟨-, hp⟩ := push_cases s s.pc
  · simp [full] at free
  · simp only [exec, execCall, hp, reportDiagnostic_eq]

/-- The state RET leaves when slot `j` is the last occupied one (R132). -/
theorem exec_ret_of_occupied {s : State} {j : Fin 16} (occupied : s.sp.val = j.val + 1) :
    exec .ret s = .next
      ((State.setPc { s with sp := ⟨j.val, by omega⟩ } (s.stack.get j + 2)).log .none) := by
  obtain ⟨k, hk, hp⟩ | ⟨empty, -⟩ := pop_cases s
  · obtain rfl : k = j := Fin.ext (by omega)
    simp only [exec, execRet, hp, complete_eq]
  · simp [empty] at occupied

theorem exec_ret_of_empty {s : State} (empty : s.sp = 0) :
    exec .ret s = .next (s.advance.log .stackUnderflow) := by
  obtain ⟨k, occupied, -⟩ | ⟨-, hp⟩ := pop_cases s
  · simp [empty] at occupied
  · simp only [exec, execRet, hp, reportDiagnostic_eq]

/-- Settles O27: with a free slot by `get_stack_set`, and with none CALL is a report. -/
theorem callPushesItsOwnAddress : Obligations.CallPushesItsOwnAddress := by
  unfold Obligations.CallPushesItsOwnAddress
  intro nnn s hn
  refine ⟨fun free => ⟨_, exec_call_of_free nnn free, addressOperand_toNat hn, rfl, ?pushed, ?others, rfl,
    changesOnly_setPc_log _ _ _⟩, fun full => ⟨_, exec_call_of_full nnn full, rfl, rfl,
    changesOnly_advance_log s _⟩⟩
  case pushed => exact (get_stack_set s.stack s.sp.val free s.pc _).trans (if_pos rfl)
  case others => exact fun j hj => (get_stack_set s.stack s.sp.val free s.pc j).trans (if_neg hj)

/-- Settles O28: the slot read is the one below SP, and only SP and pc are written. -/
theorem retPopsAndAddsTwo : Obligations.RetPopsAndAddsTwo := by
  unfold Obligations.RetPopsAndAddsTwo
  exact fun s =>
    ⟨fun j occupied =>
      ⟨_, exec_ret_of_occupied occupied, rfl, rfl, rfl, changesOnly_setPc_log _ _ _⟩,
    fun empty => ⟨_, exec_ret_of_empty empty, rfl, rfl, changesOnly_advance_log s _⟩⟩

/-- Settles O29: the slot of the CALL is the last occupied one when the RET runs, and it still holds the
address of the CALL. -/
theorem callThenRetReturnsAfterTheCall : Obligations.CallThenRetReturnsAfterTheCall := by
  unfold Obligations.CallThenRetReturnsAfterTheCall
  intro nnn s called later free hcall hsp hslot
  cases (exec_call_of_free nnn free).symm.trans hcall
  have occupied : later.sp.val = s.sp.val + 1 := congrArg Fin.val hsp
  have hpushed : later.stack.get ⟨s.sp.val, free⟩ = s.pc :=
    calc later.stack.get ⟨s.sp.val, free⟩
      _ = (s.stack.set s.sp.val s.pc).get ⟨s.sp.val, free⟩ := hslot _ rfl
      _ = s.pc := (get_stack_set s.stack s.sp.val free s.pc _).trans (if_pos rfl)
  exact ⟨_, exec_ret_of_occupied (j := ⟨s.sp.val, free⟩) occupied, congrArg (· + 2) hpushed, rfl⟩

/-! ## Skips -/

theorem skipIf_pc_eq_add (s : State) (taken : Bool) :
    (s.skipIf taken).pc = s.pc + if taken then 4 else 2 := by
  cases taken <;> rfl

/-- A skip that completes adds its offset to pc and writes nothing else (R41). -/
theorem complete_skipIf_adds (s : State) {taken : Bool} {offset : Word}
    (h : (if taken then 4 else 2) = offset) :
    ∃ t, complete (s.skipIf taken) = .next t ∧ t.pc = s.pc + offset ∧ Logs .none s t ∧
      ChangesOnly [] s t :=
  ⟨_, rfl, h ▸ skipIf_pc_eq_add s taken, rfl, changesOnly_setPc_log s _ _⟩

/-- The offset of a skip on equal bytes, by their values. -/
theorem skipOffset_beq (a b : Byte) :
    (if a == b then 4 else 2 : Word) = if a.toNat = b.toNat then 4 else 2 := by
  simp [BitVec.toNat_inj]

/-- The offset of a skip on different bytes, by their values. -/
theorem skipOffset_bne (a b : Byte) :
    (if a != b then 4 else 2 : Word) = if a.toNat = b.toNat then 2 else 4 := by
  simp [BitVec.toNat_inj]

/-- Settles O30: each skip is `skipIf` of one comparison of bytes. -/
theorem skipsOnRegisterComparison : Obligations.SkipsOnRegisterComparison := by
  unfold Obligations.SkipsOnRegisterComparison
  exact fun x y kk s =>
    ⟨complete_skipIf_adds s (skipOffset_beq (s.getV x) kk),
     complete_skipIf_adds s (skipOffset_bne (s.getV x) kk),
     complete_skipIf_adds s (skipOffset_beq (s.getV x) (s.getV y)),
     complete_skipIf_adds s (skipOffset_bne (s.getV x) (s.getV y))⟩

end Sys2Proof.Machine

/-! PROOFS. The arithmetic and logic family (41_arith_logic.md): the result, the flag and the frame of the
loads, the sums and differences, the bitwise operations and the two shifts. -/

namespace Sys2Proof.Machine

/-! ## Frames -/

/-- An instruction that falls through having written only the listed registers changes nothing else but
pc and DiagLog. -/
theorem changesOnly_registers {rs : List Reg} {s u : State} (only : u = { s with v := u.v })
    (kept : KeepsRegs rs s u) : ChangesOnly rs s (u.advance.log .none) := by
  rw [only] at kept ⊢
  exact ⟨kept, fun _ => rfl, ⟨rfl, rfl, rfl, rfl, rfl, rfl, rfl, rfl, rfl, rfl, rfl⟩⟩

theorem changesOnly_setV (x : Reg) (s : State) (b : Byte) :
    ChangesOnly [x] s ((s.setV x b).advance.log .none) :=
  changesOnly_registers rfl (keepsRegs_setV (by simp) s b)

theorem changesOnly_setV_setVF (x : Reg) (s : State) (b f : Byte) :
    ChangesOnly [x, VF] s (((s.setV x b).setVF f).advance.log .none) :=
  changesOnly_registers rfl (keepsRegs_setV_setVF x s b f)

/-! ## Loads, the immediate sum and the bitwise operations -/

/-- Settles O21: each writes one register, and the sum of bytes is `BitVec.toNat_add`. -/
theorem loadAndAddImmediate : Obligations.LoadAndAddImmediate := by
  unfold Obligations.LoadAndAddImmediate
  intro x kk s
  have sum : ((s.setV x (s.getV x + kk)).getV x).toNat = ((s.getV x).toNat + kk.toNat) % 256 := by
    rw [State.getV_setV_self, BitVec.toNat_add]
  exact ⟨⟨_, rfl, s.getV_setV_self x kk, rfl, rfl, changesOnly_setV x s _⟩,
    ⟨_, rfl, sum, rfl, rfl, changesOnly_setV x s _⟩⟩

/-- Settles O22: each writes one register, and the library has the bits of each operation. -/
theorem registerMoveAndLogic : Obligations.RegisterMoveAndLogic := by
  unfold Obligations.RegisterMoveAndLogic
  intro x y s
  have bits {r : Byte} {p : Nat → Bool} (h : ∀ b, r.getLsbD b = p b) (b : Nat) :
      ((s.setV x r).getV x).getLsbD b = p b := by
    rw [State.getV_setV_self, h]
  exact ⟨⟨_, rfl, s.getV_setV_self x _, rfl, rfl, changesOnly_setV x s _⟩,
    ⟨_, rfl, bits fun _ => BitVec.getLsbD_or, rfl, rfl, changesOnly_setV x s _⟩,
    ⟨_, rfl, bits fun _ => BitVec.getLsbD_and, rfl, rfl, changesOnly_setV x s _⟩,
    ⟨_, rfl, bits fun _ => BitVec.getLsbD_xor, rfl, rfl, changesOnly_setV x s _⟩⟩

/-! ## Sums and differences, the flag written last -/

theorem carryFlag_eq (a b : Byte) : carryFlag a b = if a.toNat + b.toNat > 255 then 1 else 0 := by
  simp [carryFlag, flagByte]

theorem notBorrowFlag_eq (a b : Byte) : notBorrowFlag a b = if b.toNat > a.toNat then 0 else 1 := by
  unfold notBorrowFlag
  by_cases borrow : b.toNat > a.toNat <;> simp [borrow, flagByte]

/-- The difference of two bytes is that of their values mod 256, in the integers. -/
theorem toNat_sub_eq_emod (a b : Byte) : ((a - b).toNat : Int) = (a.toNat - b.toNat : Int) % 256 := by
  rw [BitVec.toNat_sub]
  omega

/-- The result stands after the flag write when the register is not VF. -/
theorem getV_setVF_setV_of_ne {x : Reg} (hx : x ≠ VF) (s : State) (b f : Byte) :
    ((s.setV x b).setVF f).getV x = b := by
  rw [State.getV_setVF, if_neg hx, State.getV_setV_self]

/-- Settles O23: the flag write is the last, so VF is the carry for every x. -/
theorem addRegistersWithCarry : Obligations.AddRegistersWithCarry := by
  unfold Obligations.AddRegistersWithCarry
  intro x y s
  refine ⟨_, rfl, fun hx => ?sum, ?carry, rfl, rfl, changesOnly_setV_setVF x s _ _⟩
  case sum => rw [State.getV_log, State.getV_advance, getV_setVF_setV_of_ne hx, BitVec.toNat_add]
  case carry => exact (State.getV_setV_self _ VF _).trans (carryFlag_eq _ _)

/-- The state that SUB and SUBN leave, for the difference `a - b` (R167, R169). -/
theorem difference_completes (x : Reg) (a b : Byte) (s : State) :
    ∃ t, completeNext ((s.setV x (a - b)).setVF (notBorrowFlag a b)) = .next t ∧
      (x ≠ VF → ((t.getV x).toNat : Int) = (a.toNat - b.toNat : Int) % 256) ∧
      t.getV VF = (if b.toNat > a.toNat then 0 else 1) ∧
      t.pc = s.pc + 2 ∧ Logs .none s t ∧ ChangesOnly [x, VF] s t := by
  refine ⟨_, rfl, fun hx => ?difference, ?notBorrow, rfl, rfl, changesOnly_setV_setVF x s _ _⟩
  case difference =>
    rw [State.getV_log, State.getV_advance, getV_setVF_setV_of_ne hx, toNat_sub_eq_emod]
  case notBorrow => exact (State.getV_setV_self _ VF _).trans (notBorrowFlag_eq a b)

/-- Settles O24: SUB and SUBN are one difference with its operands exchanged. -/
theorem subtractRegistersWithNotBorrow : Obligations.SubtractRegistersWithNotBorrow := by
  unfold Obligations.SubtractRegistersWithNotBorrow
  exact fun x y s => ⟨difference_completes x (s.getV x) (s.getV y) s,
    difference_completes x (s.getV y) (s.getV x) s⟩

/-! ## Shifts, the flag written first -/

theorem shrFlag_toNat (b : Byte) : (shrFlag b).toNat = b.toNat % 2 := by
  simp [shrFlag, Nat.and_one_is_mod]

theorem shlFlag_toNat (b : Byte) : (shlFlag b).toNat = b.toNat / 128 := by
  have bit : (shlFlag b).toNat = b.toNat / 128 % 2 := by
    simp [shlFlag, Nat.and_one_is_mod, Nat.shiftRight_eq_div_pow]
  omega

theorem toNat_shiftRight_one (b : Byte) : (b >>> 1).toNat = b.toNat / 2 := by
  rw [BitVec.toNat_ushiftRight, Nat.shiftRight_eq_div_pow, pow_one]

theorem toNat_shiftLeft_one (b : Byte) : (b <<< 1).toNat = 2 * b.toNat % 256 := by
  rw [BitVec.toNat_shiftLeft, Nat.shiftLeft_eq, pow_one, mul_comm]

/-- The operand of a shift of VF under the first reading of SHIFT_VF_ALIAS (R9, D10). -/
theorem shiftOperand_VF_of_latched (h : Config.shiftVfAlias = .latched) (b : Byte) (s : State) :
    shiftOperand VF b s = b := by
  simp [shiftOperand, h]

/-- The operand of a shift of VF under the second reading: the flag just written (R9, D10). -/
theorem shiftOperand_VF_of_reread (h : Config.shiftVfAlias = .reread) (b f : Byte) (s : State) :
    shiftOperand VF b (s.setVF f) = f := by
  simp [shiftOperand, h]

/-- The registers SHR and SHL leave: the flag is written, then the shifted operand (R168, R170). -/
def afterShift (shift flag : Byte → Byte) (x : Reg) (s : State) : State :=
  (s.setVF (flag (s.getV x))).setV x (shift (shiftOperand x (s.getV x) (s.setVF (flag (s.getV x)))))

theorem exec_shr (x : Reg) (s : State) :
    exec (.shr x) s = .next ((afterShift (· >>> 1) shrFlag x s).advance.log .none) := rfl

theorem exec_shl (x : Reg) (s : State) :
    exec (.shl x) s = .next ((afterShift (· <<< 1) shlFlag x s).advance.log .none) := rfl

section
variable (shift flag : Byte → Byte) (s : State)

theorem changesOnly_afterShift (x : Reg) :
    ChangesOnly [x, VF] s ((afterShift shift flag x s).advance.log .none) :=
  changesOnly_registers rfl (keepsRegs_setVF_setV x s _ _)

theorem getV_afterShift_of_ne {x : Reg} (hx : x ≠ VF) :
    (afterShift shift flag x s).getV x = shift (s.getV x) := by
  rw [afterShift, State.getV_setV_self, shiftOperand_of_ne hx]

theorem getV_VF_afterShift_of_ne {x : Reg} (hx : x ≠ VF) :
    (afterShift shift flag x s).getV VF = flag (s.getV x) := by
  rw [afterShift, State.getV_setV_of_ne _ _ hx.symm, State.getV_setVF, if_pos rfl]

theorem getV_VF_afterShift_of_latched (h : Config.shiftVfAlias = .latched) :
    (afterShift shift flag VF s).getV VF = shift (s.getV VF) := by
  rw [afterShift, State.getV_setV_self, shiftOperand_VF_of_latched h]

theorem getV_VF_afterShift_of_reread (h : Config.shiftVfAlias = .reread) :
    (afterShift shift flag VF s).getV VF = shift (flag (s.getV VF)) := by
  rw [afterShift, State.getV_setV_self, shiftOperand_VF_of_reread h]

end

/-- SHR of a register other than VF gives the half and the bit it loses. -/
theorem shr_of_ne {x : Reg} (hx : x ≠ VF) (s : State) :
    ((afterShift (· >>> 1) shrFlag x s).getV x).toNat = (s.getV x).toNat / 2 ∧
    ((afterShift (· >>> 1) shrFlag x s).getV VF).toNat = (s.getV x).toNat % 2 := by
  rw [getV_afterShift_of_ne _ _ s hx, getV_VF_afterShift_of_ne _ _ s hx]
  exact ⟨toNat_shiftRight_one _, shrFlag_toNat _⟩

/-- SHL of a register other than VF gives the double mod 256 and the bit it loses. -/
theorem shl_of_ne {x : Reg} (hx : x ≠ VF) (s : State) :
    ((afterShift (· <<< 1) shlFlag x s).getV x).toNat = 2 * (s.getV x).toNat % 256 ∧
    ((afterShift (· <<< 1) shlFlag x s).getV VF).toNat = (s.getV x).toNat / 128 := by
  rw [getV_afterShift_of_ne _ _ s hx, getV_VF_afterShift_of_ne _ _ s hx]
  exact ⟨toNat_shiftLeft_one _, shlFlag_toNat _⟩

/-- Settles O25: for x = VF by the two readings of the open SHIFT_VF_ALIAS; the doubled flag of the second
is at most 2, so it does not wrap. -/
theorem shiftsLoseOneBitToVf : Obligations.ShiftsLoseOneBitToVf := by
  unfold Obligations.ShiftsLoseOneBitToVf
  intro x s
  refine ⟨⟨_, exec_shr x s, fun hx => shr_of_ne hx s, ?shrVF, rfl, rfl, changesOnly_afterShift _ _ s x⟩,
    ⟨_, exec_shl x s, fun hx => shl_of_ne hx s, ?shlVF, rfl, rfl, changesOnly_afterShift _ _ s x⟩⟩
  case shrVF =>
    rintro rfl
    rw [State.getV_log, State.getV_advance]
    cases h : Config.shiftVfAlias with
    | latched => rw [getV_VF_afterShift_of_latched _ _ s h, toNat_shiftRight_one]
    | reread => rw [getV_VF_afterShift_of_reread _ _ s h, toNat_shiftRight_one, shrFlag_toNat]
  case shlVF =>
    rintro rfl
    rw [State.getV_log, State.getV_advance]
    cases h : Config.shiftVfAlias with
    | latched => rw [getV_VF_afterShift_of_latched _ _ s h, toNat_shiftLeft_one]
    | reread =>
      rw [getV_VF_afterShift_of_reread _ _ s h, toNat_shiftLeft_one, shlFlag_toNat]
      exact Nat.mod_eq_of_lt (by omega)

end Sys2Proof.Machine

/-! PROOFS. The memory-transfer family (42_memory_transfer.md): the value I receives, the bytes that LD B
and LD [I] store, the registers that LD Vx,[I] loads, and the frame of each. -/

namespace Sys2Proof.Machine

/-! ## Storing through I -/

/-- A store through I writes bytes of memory, pc and DiagLog; FONT is no byte of memory. -/
theorem keepsUnits_setMem_writeBytes (s : State) (a : Nat) (bytes : List Byte) :
    KeepsUnits s ((s.setMem (s.mem.writeBytes a bytes)).advance.log .none) :=
  ⟨rfl, rfl, rfl, rfl, rfl, rfl, rfl, rfl, rfl, rfl, Memory.writeBytes_font bytes s.mem a⟩

/-- A store through I whose addresses are all writable puts each byte at its address, and writes nothing
else but pc and DiagLog (R63, R193, R194). -/
theorem storeAtIndex_completes {bytes : List Byte} {s : State} (hb : 0 < bytes.length)
    (low : 0x50 ≤ s.i.toNat) (high : s.i.toNat + bytes.length ≤ 4096) :
    ∃ t, storeAtIndex bytes s = .next t ∧
      (∀ (j : Nat) (hj : j < bytes.length), t.mem.read (s.indexAddress + j) = bytes[j]) ∧
      KeepsMemoryOutside s.indexAddress bytes.length s t ∧
      t.pc = s.pc + 2 ∧ Logs .none s t ∧ KeepsRegs [] s t ∧ KeepsUnits s t :=
  ⟨_, (storeAtIndex_eq_next hb).2 ⟨⟨low, high⟩, rfl⟩,
    fun j hj => Memory.read_writeBytes_inside bytes s.mem s.indexAddress j hj,
    fun b hb => Memory.read_writeBytes_outside bytes s.mem s.indexAddress b hb,
    rfl, rfl, fun _ _ => rfl, keepsUnits_setMem_writeBytes s _ bytes⟩

/-- Settles O33: the three bytes stored are the decimal digits, and a byte has no fourth one, so that the
hundreds need no reduction mod 10. -/
theorem bcdStoreWritesThreeDigits : Obligations.BcdStoreWritesThreeDigits := by
  unfold Obligations.BcdStoreWritesThreeDigits
  intro x s low high
  have digit := decimalDigits_getElem_toNat (s.getV x)
  have hundreds : (s.getV x).toNat / 10 ^ 2 % 10 = (s.getV x).toNat / 100 := by omega
  obtain ⟨t, run, stored, frame⟩ :=
    storeAtIndex_completes (bytes := decimalDigits (s.getV x)) (by simp) low
      (by rw [decimalDigits_length]; omega)
  refine ⟨t, run, ?first, ?second, ?third, frame⟩
  case first => exact (congrArg _ (stored 0 (by simp))).trans ((digit 0 (by omega)).trans hundreds)
  case second => exact (congrArg _ (stored 1 (by simp))).trans (digit 1 (by omega))
  case third => exact (congrArg _ (stored 2 (by simp))).trans ((digit 2 (by omega)).trans (by simp))

/-- Settles O34: the bytes stored are the registers V0 to Vx. -/
theorem blockStoreWritesVzeroToVx : Obligations.BlockStoreWritesVzeroToVx := by
  unfold Obligations.BlockStoreWritesVzeroToVx
  intro x s low high
  obtain ⟨t, run, stored, outside, frame⟩ :=
    storeAtIndex_completes (bytes := regBytes s x) (by simp) low (by rw [regBytes_length]; omega)
  rw [regBytes_length] at outside
  refine ⟨t, run, fun j hj => ?_, outside, frame⟩
  have inRun : j.val < (regBytes s x).length := by simpa using Nat.lt_succ_of_le hj
  exact (stored j.val inRun).trans (regBytes_getElem s x j inRun)

/-! ## Loading from I -/

/-- A block load whose last address exists passes its check, in the font too (R62, R195). -/
theorem exec_ldLoad_of_inMemory {x : Reg} {s : State} (h : s.i.toNat + x.val < 4096) :
    exec (.ldLoad x) s = .next ((loadRegs s x s.indexAddress).advance.log .none) :=
  checked_eq_next.2 ⟨(firstFault_read_eq_none (Nat.succ_pos _)).2 h, completeNext_eq _⟩

/-- A block load writes V0 to Vx, pc and DiagLog (R31, R195). -/
theorem changesOnly_loadRegs (s : State) (x : Reg) (a : Nat) :
    ChangesOnly (Instr.ldLoad x).writtenRegs s ((loadRegs s x a).advance.log .none) :=
  changesOnly_registers rfl
    (keepsRegs_loadRegs (fun r hr => by simpa [Instr.writtenRegs] using hr) s a)

/-- Settles O35: a register up to Vx is a byte of memory, and the frame of the load keeps the rest. The
field lemmas of `loadRegs` stand where `rfl` would compare the two register files. -/
theorem blockLoadReadsVzeroToVx : Obligations.BlockLoadReadsVzeroToVx := by
  unfold Obligations.BlockLoadReadsVzeroToVx
  intro x s inMemory
  obtain ⟨regs, memory, units⟩ := changesOnly_loadRegs s x s.indexAddress
  refine ⟨_, exec_ldLoad_of_inMemory inMemory, fun j hj => ?loaded, fun j hj => regs j ?above, ?pc,
    ?logs, memory, units⟩
  case loaded => rw [State.getV_log, State.getV_advance, getV_loadRegs, if_pos hj]
  case above => simpa [Instr.writtenRegs] using hj
  case pc => rw [State.log_pc, State.advance_pc, loadRegs_pc]
  case logs => rw [Logs, State.log_diagLog, State.advance_diagLog, loadRegs_diagLog]

/-! ## Writing I -/

/-- An instruction that only falls through with a new I leaves that value in I, and writes nothing else but
pc and DiagLog (R33). -/
theorem completeNext_setI (s : State) {a : Word} {n : Nat} (h : a.toNat = n) :
    ∃ t, completeNext (s.setI a) = .next t ∧ t.i.toNat = n ∧ t.pc = s.pc + 2 ∧ Logs .none s t ∧
      ChangesOnly [] { s with i := t.i } t :=
  ⟨_, rfl, h, rfl, rfl, changesOnly_advance_log (s.setI a) .none⟩

/-- Five times a byte fits 16 bits, so the glyph address of the full value is not reduced (R192). -/
theorem fontAddress_toNat (vx : Byte) : (fontAddress vx).toNat = 5 * vx.toNat := by
  rw [fontAddress, BitVec.toNat_ofNat, Nat.zero_add]
  exact Nat.mod_eq_of_lt (by simp only [Config.glyphBytes]; omega)

theorem add_zext16_toNat (a : Word) (b : Byte) :
    (a + zext16 b).toNat = (a.toNat + b.toNat) % 65536 := by
  rw [BitVec.toNat_add, zext16, BitVec.toNat_setWidth_of_le (by omega)]

/-- Settles O31: neither value wraps. -/
theorem loadIndexAndFontPointer : Obligations.LoadIndexAndFontPointer := by
  unfold Obligations.LoadIndexAndFontPointer
  exact fun nnn x s => ⟨fun hn => completeNext_setI s (addressOperand_toNat hn),
    completeNext_setI s (fontAddress_toNat (s.getV x))⟩

/-- Settles O32: the one write is I, so every register stands, VF too. -/
theorem addToIndexWrapsAtSixteenBits : Obligations.AddToIndexWrapsAtSixteenBits := by
  unfold Obligations.AddToIndexWrapsAtSixteenBits
  exact fun x s => completeNext_setI s (add_zext16_toNat s.i (s.getV x))

end Sys2Proof.Machine

/-! PROOFS. The display family (43_display.md): what CLS and DRW leave on the screen and in VF, and the frame
of each. A sprite of fewer than 16 rows falls on each cell at most once, so that a cell turned off stays off
to the end of the draw: the collision flag is then a comparison of the two screens. -/

namespace Sys2Proof.Machine

/-- Settles O38: the one write is FB, with the blank framebuffer. -/
theorem clearScreenTurnsEveryCellOff : Obligations.ClearScreenTurnsEveryCellOff := by
  unfold Obligations.ClearScreenTurnsEveryCellOff
  exact fun s => ⟨_, rfl, Framebuffer.cell_blank, rfl, rfl,
    changesOnly_advance_log (s.setFb Framebuffer.blank) .none⟩

/-! ## What DRW leaves -/

/-- The drawing DRW makes on the screen it finds, its operands read before VF is written (R211, D9). -/
def State.drawing (s : State) (x y : Reg) (n : Nat) : Drawing :=
  Drawing.sprite (s.fb, false) s.mem s.indexAddress n (s.getV x).toNat (s.getV y).toNat

/-- The state a DRW that made the drawing `d` leaves. `exec_drw_eq_next` ties it to `exec`. -/
def State.afterDrw (s : State) (d : Drawing) : State :=
  (((s.setVF 0).setFb d.1).setVF (flagByte d.2)).advance.log .none

theorem exec_drw_eq_next {x y : Reg} {n : Nat} {s t : State} :
    exec (.drw x y n) s = .next t ↔
      firstFault readFault s.indexAddress n = none ∧ s.afterDrw (s.drawing x y n) = t :=
  checked_eq_next.trans (and_congr_right fun _ => by rw [completeNext_eq, Host.Outcome.next.injEq]; rfl)

theorem getV_VF_afterDrw (s : State) (d : Drawing) : (s.afterDrw d).getV VF = flagByte d.2 :=
  State.getV_setV_self _ _ _

/-- DRW writes FB, VF, pc and DiagLog (R211). -/
theorem changesOnly_afterDrw (s : State) (d : Drawing) :
    ChangesOnly [VF] { s with fb := d.1 } (s.afterDrw d) :=
  changesOnly_registers rfl
    ((keepsRegs_setV (by simp) (s.setFb d.1) 0).trans (keepsRegs_setV (by simp) _ (flagByte d.2)))

/-- A run of bytes inside memory, an empty one too, passes the check of a read (R62). -/
theorem firstFault_read_of_inMemory {a n : Nat} (h : a + n ≤ 4096) :
    firstFault readFault a n = none := by
  cases n with
  | zero => rfl
  | succ n => exact (firstFault_read_eq_none n.succ_pos).2 h

/-- Settles O39: the cells are those of `Drawing.sprite_cell`, a sprite of fewer than 16 rows fitting the 32
lines of the screen. -/
theorem drawXorsTheSpriteIntoTheScreen : Obligations.DrawXorsTheSpriteIntoTheScreen := by
  unfold Obligations.DrawXorsTheSpriteIntoTheScreen
  intro x y n s hn inMemory
  exact ⟨_, exec_drw_eq_next.2 ⟨firstFault_read_of_inMemory inMemory, rfl⟩,
    Drawing.sprite_cell (s.fb, false) s.mem s.indexAddress n _ _ (by omega), rfl, rfl,
    changesOnly_afterDrw s _⟩

/-- Settles O40: no row is checked and none is drawn, so the drawing is the screen as it was, with no
collision. -/
theorem drawOfNoRowsOnlyClearsVf : Obligations.DrawOfNoRowsOnlyClearsVf := by
  unfold Obligations.DrawOfNoRowsOnlyClearsVf
  exact fun x y s => ⟨s.afterDrw (s.fb, false), exec_drw_eq_next.2 ⟨rfl, rfl⟩, getV_VF_afterDrw s _, rfl, rfl,
    changesOnly_afterDrw s (s.fb, false)⟩

/-! ## The collision flag -/

/-- Some cell that was on in the first framebuffer is off in the second (R212). -/
def Framebuffer.SomeTurnedOff (before after : Framebuffer) : Prop :=
  ∃ c r, before.cell c r = true ∧ after.cell c r = false

/-- The drawing has noted a collision exactly when it shows a cell turned off since `before`. -/
def Drawing.NotesTurnedOff (before : Framebuffer) (d : Drawing) : Prop :=
  d.2 = true ↔ before.SomeTurnedOff d.1

theorem Drawing.notesTurnedOff_start (fb : Framebuffer) : Drawing.NotesTurnedOff fb (fb, false) := by
  simp [NotesTurnedOff, Framebuffer.SomeTurnedOff]

/-- Inverting a cell that is still as it was before turns it off exactly when it was on, and touches no other
cell. -/
theorem Framebuffer.someTurnedOff_invert {before fb : Framebuffer} {c : Fin 64} {r : Fin 32}
    (fresh : fb.cell c r = before.cell c r) :
    before.SomeTurnedOff (fb.setCell c r (!fb.cell c r)) ↔
      before.SomeTurnedOff fb ∨ before.cell c r = true := by
  simp only [SomeTurnedOff, cell_setCell]
  constructor
  · rintro ⟨c', r', on, off⟩
    by_cases same : c' = c ∧ r' = r
    · exact .inr (same.1 ▸ same.2 ▸ on)
    · exact .inl ⟨c', r', on, by rwa [if_neg same] at off⟩
  · rintro (⟨c', r', on, off⟩ | on)
    · have other : ¬ (c' = c ∧ r' = r) := by
        rintro ⟨rfl, rfl⟩
        exact absurd (off.symm.trans (fresh.trans on)) Bool.false_ne_true
      exact ⟨c', r', on, by rw [if_neg other, off]⟩
    · exact ⟨c, r, on, by simp [fresh, on]⟩

theorem Drawing.NotesTurnedOff.toggle {before : Framebuffer} {d : Drawing} (h : d.NotesTurnedOff before)
    {col row : Nat} (fresh : d.1.cell (Fin.ofNat 64 col) (Fin.ofNat 32 row) =
      before.cell (Fin.ofNat 64 col) (Fin.ofNat 32 row)) :
    (d.toggle col row).NotesTurnedOff before := by
  unfold NotesTurnedOff at h ⊢
  rw [toggle_collision, Bool.or_eq_true, h, fresh]
  exact (Framebuffer.someTurnedOff_invert fresh).symm

/-- The first `k` pixels of a sprite row. -/
def Drawing.pixels (d : Drawing) (b : Byte) (ox row k : Nat) : Drawing :=
  (List.range k).foldl (fun d col => if b.getLsbD (7 - col) then d.toggle (ox + col) row else d) d

theorem Drawing.row_eq_pixels (d : Drawing) (b : Byte) (ox row : Nat) :
    d.row b ox row = d.pixels b ox row 8 := rfl

theorem Drawing.pixels_succ (d : Drawing) (b : Byte) (ox row k : Nat) :
    d.pixels b ox row (k + 1) =
      if b.getLsbD (7 - k) then (d.pixels b ox row k).toggle (ox + k) row else d.pixels b ox row k := by
  simp [pixels, List.range_succ]

theorem Drawing.sprite_succ (d : Drawing) (m : Memory) (a n ox oy : Nat) :
    d.sprite m a (n + 1) ox oy = (d.sprite m a n ox oy).row (m.read (a + n)) ox (oy + n) := by
  simp [sprite, List.range_succ]

/-- The first `k` pixels of a row leave the cell of the next pixel as it was. -/
theorem Drawing.pixels_cell_next (d : Drawing) (b : Byte) (ox row : Nat) {k : Nat} (hk : k ≤ 8)
    (r : Fin 32) :
    (d.pixels b ox row k).1.cell (Fin.ofNat 64 (ox + k)) r = d.1.cell (Fin.ofNat 64 (ox + k)) r := by
  have distance : ((Fin.ofNat 64 (ox + k)).val + 64 - ox % 64) % 64 = k := by
    rw [Fin.val_ofNat]; omega
  rw [pixels, row_cell_prefix d b ox row k hk, distance]
  simp

/-- The first `n` rows of a sprite leave the line of the next row as it was. -/
theorem Drawing.sprite_cell_next (d : Drawing) (m : Memory) (a ox oy : Nat) {n : Nat} (hn : n < 32)
    (c : Fin 64) :
    (d.sprite m a n ox oy).1.cell c (Fin.ofNat 32 (oy + n)) = d.1.cell c (Fin.ofNat 32 (oy + n)) := by
  have distance : ((Fin.ofNat 32 (oy + n)).val + 32 - oy % 32) % 32 = n := by
    rw [Fin.val_ofNat]; omega
  rw [sprite_cell d m a n ox oy hn.le, distance]
  simp

/-- A row drawn on a line that is still as it was before notes the cells it turns off. -/
theorem Drawing.NotesTurnedOff.pixels {before : Framebuffer} {d : Drawing} (h : d.NotesTurnedOff before)
    (b : Byte) (ox : Nat) {row : Nat}
    (fresh : ∀ c, d.1.cell c (Fin.ofNat 32 row) = before.cell c (Fin.ofNat 32 row)) {k : Nat} (hk : k ≤ 8) :
    (d.pixels b ox row k).NotesTurnedOff before := by
  induction k with
  | zero => exact h
  | succ k ih =>
    have ih := ih (by omega)
    rw [pixels_succ]
    split
    · exact ih.toggle ((d.pixels_cell_next b ox row (by omega) _).trans (fresh _))
    · exact ih

/-- A sprite of at most 32 rows falls on each line at most once, so it notes the cells it turns off. -/
theorem Drawing.sprite_notesTurnedOff (fb : Framebuffer) (m : Memory) (a ox oy : Nat) {n : Nat}
    (hn : n ≤ 32) : (Drawing.sprite (fb, false) m a n ox oy).NotesTurnedOff fb := by
  induction n with
  | zero => exact notesTurnedOff_start fb
  | succ n ih =>
    rw [sprite_succ, row_eq_pixels]
    exact (ih (by omega)).pixels _ ox (sprite_cell_next (fb, false) m a ox oy hn) le_rfl

/-- Settles O41: the flag is the collision the drawing has noted. -/
theorem collisionFlagIsACellTurnedOff : Obligations.CollisionFlagIsACellTurnedOff := by
  unfold Obligations.CollisionFlagIsACellTurnedOff
  intro x y n s t hn h
  obtain ⟨-, rfl⟩ := exec_drw_eq_next.1 h
  have noted : (s.drawing x y n).2 = true ↔ s.fb.SomeTurnedOff (s.drawing x y n).1 :=
    Drawing.sprite_notesTurnedOff s.fb s.mem s.indexAddress _ _ (by omega)
  rw [getV_VF_afterDrw]
  exact ⟨fun off => by rw [noted.2 off]; rfl,
    fun kept => by rw [Bool.eq_false_iff.2 (mt noted.1 kept)]; rfl⟩

end Sys2Proof.Machine

/-! PROOFS. The timer family (44_timers.md): what the three timer instructions move, what any number of ticks
leaves, and when the machine beeps. -/

namespace Sys2Proof.Machine

/-! ## Loading a timer -/

theorem exec_ldVxDt (x : Reg) (s : State) :
    exec (.ldVxDt x) s = .next ((s.setV x s.dt).advance.log .none) := rfl

theorem exec_ldDt (x : Reg) (s : State) :
    exec (.ldDt x) s = .next ((s.setDt (s.getV x)).advance.log .none) := rfl

theorem exec_ldSt (x : Reg) (s : State) :
    exec (.ldSt x) s = .next ((s.setSt (s.getV x)).advance.log .none) := rfl

/-- Settles O42: one register or one timer is written before the fall-through, which has no tick in it. -/
theorem timerInstructionsMoveTheirTimer : Obligations.TimerInstructionsMoveTheirTimer := by
  unfold Obligations.TimerInstructionsMoveTheirTimer
  exact fun x s => ⟨⟨_, exec_ldVxDt x s, s.getV_setV_self x s.dt, rfl, rfl, changesOnly_setV x s s.dt⟩,
    ⟨_, exec_ldDt x s, rfl, rfl, rfl, changesOnly_advance_log (s.setDt (s.getV x)) .none⟩,
    ⟨_, exec_ldSt x s, rfl, rfl, rfl, changesOnly_advance_log (s.setSt (s.getV x)) .none⟩⟩

/-! ## Ticks -/

/-- A byte counted down does not wrap. -/
theorem toNat_ofNat_toNat_sub (b : Byte) (n : Nat) : (BitVec.ofNat 8 (b.toNat - n)).toNat = b.toNat - n := by
  rw [BitVec.toNat_ofNat]
  omega

/-- The guard of R233 stops the count at 0, as subtraction of naturals does. -/
theorem tick_eq_ofNat_sub_one (b : Byte) :
    (if b.toNat > 0 then b - 1 else b) = BitVec.ofNat 8 (b.toNat - 1) := by
  apply BitVec.eq_of_toNat_eq
  rw [toNat_ofNat_toNat_sub]
  split
  · exact BitVec.toNat_sub_of_le (BitVec.le_def.2 ‹_›)
  · omega

/-- One tick (R233). -/
theorem tickTimers_eq (s : State) :
    tickTimers s =
      { s with dt := BitVec.ofNat 8 (s.dt.toNat - 1), st := BitVec.ofNat 8 (s.st.toNat - 1) } := by
  rw [tickTimers, tick_eq_ofNat_sub_one, tick_eq_ofNat_sub_one]

theorem hostRun_tickTimers_cons (ops : List HostOp) (s : State) :
    hostRun (.tickTimers :: ops) s = hostRun ops (tickTimers s) := rfl

/-- Settles O43, by induction on the number of ticks: one tick, then `n` from the state it leaves. -/
theorem ticksCountEachTimerDownToZero : Obligations.TicksCountEachTimerDownToZero := by
  unfold Obligations.TicksCountEachTimerDownToZero
  intro n
  induction n with
  | zero => intro s; simp [hostRun]
  | succ n ih =>
    intro s
    rw [List.replicate_succ, hostRun_tickTimers_cons, ih, tickTimers_eq]
    simp only [toNat_ofNat_toNat_sub, Nat.sub_sub, Nat.add_comm 1 n]

/-! ## Beeping -/

/-- R234. -/
theorem isBeeping_iff (s : State) : isBeeping s = true ↔ s.st ≠ 0 := by
  rw [isBeeping, decide_eq_true_iff, gt_iff_lt, Nat.pos_iff_ne_zero]
  exact (BitVec.toNat_inj (y := 0)).not

/-- Settles O44: LD ST,Vx leaves Vx in ST, so the answer after it is about Vx. -/
theorem beepingIsSoundTimerAboveZero : Obligations.BeepingIsSoundTimerAboveZero := by
  unfold Obligations.BeepingIsSoundTimerAboveZero
  refine fun s => ⟨⟨_, rfl, isBeeping_iff s⟩, fun x t h => ?_⟩
  obtain rfl := Host.Outcome.next.inj ((exec_ldSt x s).symm.trans h)
  exact isBeeping_iff _

end Sys2Proof.Machine

/-! PROOFS. The random number (45_random.md): what RND leaves in its register and in the generator. -/

namespace Sys2Proof.Machine

/-- R251, with the one draw of R250 made before the write. -/
theorem exec_rnd (x : Reg) (kk : Byte) (s : State) :
    exec (.rnd x kk) s = .next ((s.afterDraw.setV x (s.draw8 &&& kk)).advance.log .none) := rfl

/-- Settles O46: the register is the drawn byte under its mask, and to the state after the draw RND is a write
of that one register. -/
theorem randomByteIsMaskedByKk : Obligations.RandomByteIsMaskedByKk := by
  unfold Obligations.RandomByteIsMaskedByKk
  intro x kk s
  have masked : ((s.afterDraw.setV x (s.draw8 &&& kk)).advance.log .none).getV x = s.draw8 &&& kk :=
    State.getV_setV_self _ x _
  refine ⟨_, exec_rnd x kk s, masked, fun j outside => ?outside, fun zero => ?zero, rfl, rfl, rfl,
    changesOnly_setV x s.afterDraw _⟩
  case outside => rw [masked, BitVec.getLsbD_and, outside, Bool.and_false]
  case zero =>
    rw [masked, zero]
    exact BitVec.and_zero

end Sys2Proof.Machine

/-! PROOFS. The input family (46_input.md): the two key skips, the wait for a key, and how a key the host
reports ends it. -/

namespace Sys2Proof.Machine

/-! ## Key skips -/

/-- A value below 16 names a key, and the skip is on that key's flag. -/
theorem skipOnKey_of_key {x : Reg} {s : State} {k : KeyIdx} (named : (s.getV x).toNat = k.val)
    (pressed : Bool) : skipOnKey x pressed s = complete (s.skipIf (s.key.get k == pressed)) := by
  obtain ⟨j, hj, skips⟩ | ⟨unnamed, -⟩ := skipOnKey_cases x pressed s
  · obtain rfl : j = k := Fin.ext (hj.symm.trans named)
    exact skips
  · omega

/-- A value of 16 or more names no key (D7). -/
theorem skipOnKey_of_no_key {x : Reg} {s : State} (unnamed : 16 ≤ (s.getV x).toNat) (pressed : Bool) :
    skipOnKey x pressed s = .fault (.keyIndexOutOfRange (s.getV x)) := by
  obtain ⟨k, hk, -⟩ | ⟨-, faults⟩ := skipOnKey_cases x pressed s
  · omega
  · exact faults

/-- Settles O47: SKP and SKNP are one skip, on the flag being set and on its being clear. -/
theorem keySkipsTestTheNamedKey : Obligations.KeySkipsTestTheNamedKey := by
  unfold Obligations.KeySkipsTestTheNamedKey
  refine fun x s => ⟨fun k named => ⟨?skp, ?sknp⟩,
    fun unnamed => ⟨skipOnKey_of_no_key unnamed true, skipOnKey_of_no_key unnamed false⟩⟩
  case skp =>
    rw [exec, execSkp, skipOnKey_of_key named]
    exact complete_skipIf_adds s (by rw [beq_true])
  case sknp =>
    rw [exec, execSknp, skipOnKey_of_key named]
    exact complete_skipIf_adds s (by cases s.key.get k <;> rfl)

/-! ## The wait for a key -/

/-- R262 with a key pressed. -/
theorem exec_ldVxK_of_pressed (x : Reg) {s : State} (pressed : ∃ k, s.key.get k = true) :
    exec (.ldVxK x) s = .next ((s.setV x (BitVec.ofNat 8 s.lastKey.val)).advance.log .none) := by
  rw [exec, execLdVxK, if_pos ((anyKey_iff s).2 pressed), completeNext_eq]

/-- R262 with none: the same fetch repeats. -/
theorem exec_ldVxK_of_idle (x : Reg) {s : State} (idle : ∀ k, s.key.get k = false) :
    exec (.ldVxK x) s = .next (s.log .none) := by
  have notAny : ¬ s.anyKey = true := by simp [anyKey_iff, idle]
  rw [exec, execLdVxK, if_neg notAny, complete_eq]

/-- The number of a key fits a register. -/
theorem toNat_ofNat_key (k : KeyIdx) : (BitVec.ofNat 8 k.val).toNat = k.val :=
  Nat.mod_eq_of_lt (by omega)

/-- Settles O48: with a key pressed one register is written before the fall-through, and with none only the
diagnostic is logged. -/
theorem waitForKeyPollsTheSnapshot : Obligations.WaitForKeyPollsTheSnapshot := by
  unfold Obligations.WaitForKeyPollsTheSnapshot
  refine fun x s => ⟨fun pressed => ⟨_, exec_ldVxK_of_pressed x pressed, ?lastKey, rfl, rfl,
    changesOnly_setV x s _⟩, fun idle => ⟨_, exec_ldVxK_of_idle x idle, rfl, rfl,
    changesOnly_setPc_log s s.pc .none⟩⟩
  case lastKey => rw [State.getV_log, State.getV_advance, State.getV_setV_self, toNat_ofNat_key]

/-! ## A reported key -/

/-- A cycle that completes leaves the state of its step, and returns the diagnostic it logged (R284). -/
theorem advanceCycle_of_next {s t : State} (h : step s = .next t) :
    advanceCycle s = (t, .diagnostic t.lastDiag) := by
  rw [advanceCycle, h]

/-- Settles O49: the new snapshot changes neither the fetch nor its checks, so the next cycle runs the wait
with a key pressed (O48), and the frame of that cycle keeps the snapshot. -/
theorem reportedKeyEndsTheWait : Obligations.ReportedKeyEndsTheWait := by
  unfold Obligations.ReportedKeyEndsTheWait
  refine fun s pressed last => ⟨rfl, fun x k hfault hpc hdecode hk => ?_⟩
  obtain ⟨t, hexec, hlast, hnext, hlog, hregs, hmem, hunits⟩ :=
    (waitForKeyPollsTheSnapshot x (setKeyState pressed last s)).1 ⟨k, hk⟩
  have hstep : step (setKeyState pressed last s) = .next t :=
    (step_of_instr (s := setKeyState pressed last s) hfault hpc hdecode).trans hexec
  have hrun : hostRun [.setKeyState pressed last, .advanceCycle] s = t :=
    congrArg Prod.fst (advanceCycle_of_next hstep)
  exact ⟨t, hrun, hlast, hnext, hunits.key, hunits.lastKey, hlog, hregs, hmem, hunits⟩

end Sys2Proof.Machine

/-! PROOFS. The host family (47_host_operations.md): what `loadProgram` writes, the diagnostic a cycle logs and
returns, the grid between two cycles, and the invariant along any list of host operations. -/

namespace Sys2Proof.Machine

/-! ## Loading a program -/

/-- An image that fits is copied to 0x200 on (R281). -/
theorem hostCall_loadProgram_of_le {bytes : List Byte} (fits : bytes.length ≤ 3584) (s : State) :
    hostCall (.loadProgram bytes) s = (s.setMem (s.mem.writeBytes 0x200 bytes), .ok) := by
  rw [hostCall, loadProgram, if_neg (Nat.not_lt.2 fits)]
  rfl

/-- A longer one is rejected before any write (R281, R302). -/
theorem hostCall_loadProgram_of_gt {bytes : List Byte} (tooLong : bytes.length > 3584) (s : State) :
    hostCall (.loadProgram bytes) s = (s, .programTooLarge) := by
  rw [hostCall, loadProgram, if_pos tooLong]

/-- Settles O50: the copy is one run of writes, and `loadProgram` writes nothing else. -/
theorem loadProgramCopiesOrRejects : Obligations.LoadProgramCopiesOrRejects := by
  unfold Obligations.LoadProgramCopiesOrRejects
  exact fun bytes s => ⟨fun fits => ⟨_, hostCall_loadProgram_of_le fits s,
      fun j hj => Memory.read_writeBytes_inside bytes s.mem 0x200 j hj,
      fun b hb => Memory.read_writeBytes_outside bytes s.mem 0x200 b hb,
      Memory.writeBytes_font bytes s.mem 0x200, rfl⟩,
    fun tooLong => hostCall_loadProgram_of_gt tooLong s⟩

/-! ## The diagnostic of a cycle -/

theorem lastDiag_of_logs {d : Diag} {s t : State} (h : Logs d s t) : t.lastDiag = d := by
  rw [State.lastDiag, show t.diagLog = s.diagLog ++ [d] from h, List.getLastD_concat]

/-- An instruction that completes ends with one diagnostic, that of a full or an empty stack or None (R44). -/
theorem exec_logs {i : Instr} {s t : State} (h : exec i s = .next t) : ∃ d, Logs d s t := by
  cases exec_effect h with
  | callFull => exact ⟨.stackOverflow, rfl⟩
  | retEmpty => exact ⟨.stackUnderflow, rfl⟩
  | _ => exact ⟨.none, rfl⟩

theorem step_logs {s t : State} (h : step s = .next t) : ∃ d, Logs d s t := by
  obtain ⟨-, -, ⟨i, -, h⟩ | ⟨w, -, rfl⟩⟩ := step_next_cases h
  · exact exec_logs h
  · exact ⟨.unsupportedOpcode w s.pc, rfl⟩

/-- Settles O13: `advanceCycle` returns the last diagnostic of the log, and that is the one logged. -/
theorem completedCycleReturnsTheDiagnosticItLogs : Obligations.CompletedCycleReturnsTheDiagnosticItLogs := by
  unfold Obligations.CompletedCycleReturnsTheDiagnosticItLogs
  intro s t h
  obtain ⟨d, logged⟩ := step_logs h
  refine ⟨d, logged, ?_⟩
  rw [hostCall, advanceCycle_of_next h, lastDiag_of_logs logged]

/-! ## What a call of the host leaves -/

/-- A cycle leaves the state of its step, or all but the Fault component as it was (R303). -/
theorem advanceCycle_cases (s : State) :
    step s = .next (advanceCycle s).1 ∨ ∃ fault, (advanceCycle s).1 = { s with fault := fault } := by
  unfold advanceCycle
  cases step s with
  | next t => exact .inl rfl
  | fault f => exact .inr ⟨some f, rfl⟩
  | refused r => exact .inr ⟨s.fault, rfl⟩

/-- `loadProgram` leaves the state as it was, or with an image that fits written at 0x200 on (R281). -/
theorem hostCall_loadProgram_cases (bytes : List Byte) (s : State) :
    (hostCall (.loadProgram bytes) s).1 = s ∨ bytes.length ≤ 3584 ∧
      (hostCall (.loadProgram bytes) s).1 = s.setMem (s.mem.writeBytes 0x200 bytes) := by
  obtain tooLong | fits := Nat.lt_or_ge 3584 bytes.length
  · exact .inl (congrArg Prod.fst (hostCall_loadProgram_of_gt tooLong s))
  · exact .inr ⟨fits, congrArg Prod.fst (hostCall_loadProgram_of_le fits s)⟩

/-- Settles O54: of the operations but `reset` and `advanceCycle`, only `loadProgram` has two outcomes, and it
writes memory at most. -/
theorem viewGivesTheGridUnchanged : Obligations.ViewGivesTheGridUnchanged := by
  unfold Obligations.ViewGivesTheGridUnchanged
  refine fun s => ⟨rfl, fun op notReset notCycle => ?_⟩
  cases op with
  | reset seed => exact absurd rfl (notReset seed)
  | advanceCycle => exact absurd rfl notCycle
  | loadProgram bytes =>
    obtain kept | ⟨-, copied⟩ := hostCall_loadProgram_cases bytes s
    · rw [kept]
    · rw [copied, State.setMem_fb]
  | tickTimers | setKeyState | framebufferView | isBeeping => rfl

/-! ## The invariant along host operations -/

/-- The invariant, with the parameter FONT at the value `font` (R45). -/
def State.InvWithFont (font : FontTable) (s : State) : Prop := s.Inv ∧ s.mem.font = font

/-- The invariant speaks of memory, pc and the return addresses alone. -/
theorem State.InvWithFont.congr {font : FontTable} {s t : State} (h : s.InvWithFont font)
    (mem : t.mem = s.mem) (pc : t.pc = s.pc) (stack : t.stack = s.stack) : t.InvWithFont font := by
  obtain ⟨⟨memWf, intact, bounds⟩, sameFont⟩ := h
  refine ⟨⟨?memWf, ?intact, ?bounds⟩, ?sameFont⟩
  case memWf => rwa [mem]
  case intact => rwa [State.fontIntact, mem]
  case bounds => rwa [State.pcBounded, pc, stack]
  case sameFont => rwa [mem]

/-- An image that fits ends at the end of memory, and 0x200 is past the font (R61, R281). -/
theorem State.InvWithFont.setMem_writeBytes {font : FontTable} {s : State} (h : s.InvWithFont font)
    {bytes : List Byte} (fits : bytes.length ≤ 3584) :
    (s.setMem (s.mem.writeBytes 0x200 bytes)).InvWithFont font := by
  obtain ⟨⟨memWf, intact, bounds⟩, sameFont⟩ := h
  have inMemory : 0x200 + bytes.length ≤ 4096 := by omega
  exact ⟨⟨Memory.writeBytes_wf bytes memWf inMemory, fontIntact_writeBytes intact (by omega) rfl, bounds⟩,
    (Memory.writeBytes_font bytes s.mem 0x200).trans sameFont⟩

/-- A cycle keeps the invariant, whether its step completes (O18) or not. -/
theorem State.InvWithFont.advanceCycle {font : FontTable} {s : State} (h : s.InvWithFont font) :
    (advanceCycle s).1.InvWithFont font := by
  obtain completed | ⟨fault, kept⟩ := advanceCycle_cases s
  · obtain ⟨inv, sameFont⟩ := h
    obtain ⟨inv', sameFont'⟩ := stepKeepsTheInvariant s _ inv completed
    exact ⟨inv', sameFont'.trans sameFont⟩
  · rw [kept]
    exact h.congr rfl rfl rfl

/-- Every call of the host keeps the invariant and FONT. -/
theorem State.InvWithFont.hostCall {font : FontTable} {s : State} (h : s.InvWithFont font) (op : HostOp) :
    (hostCall op s).1.InvWithFont font := by
  cases op with
  | reset seed =>
    have fresh : (State.resetWith s.mem.font).InvWithFont font := ⟨resetWith_inv s.mem.font, h.2⟩
    exact fresh.congr rfl rfl rfl
  | loadProgram bytes =>
    obtain kept | ⟨fits, copied⟩ := hostCall_loadProgram_cases bytes s
    · rwa [kept]
    · rw [copied]
      exact h.setMem_writeBytes fits
  | advanceCycle => exact h.advanceCycle
  | tickTimers | setKeyState => exact h.congr rfl rfl rfl
  | framebufferView | isBeeping => exact h

/-- What every call of the host keeps, a run of any list of calls keeps. -/
theorem hostRun_keeps {P : State → Prop} (kept : ∀ op s, P s → P (hostCall op s).1) (ops : List HostOp)
    {s : State} (h : P s) : P (hostRun ops s) := by
  induction ops generalizing s with
  | nil => exact h
  | cons op ops ih => exact ih (kept op s h)

/-- Settles O19: every call keeps the invariant with the FONT of the state the run begins in. -/
theorem hostOperationsKeepTheInvariant : Obligations.HostOperationsKeepTheInvariant := by
  unfold Obligations.HostOperationsKeepTheInvariant
  exact fun ops s inv =>
    hostRun_keeps (P := State.InvWithFont s.mem.font) (fun op _ h => h.hostCall op) ops ⟨inv, rfl⟩

end Sys2Proof.Machine

/-! PROOFS. The exceptions family (60_exceptions.md) and the reset and hazards family
(70_reset_and_hazards.md): which instruction raises which fault, what a fault and a diagnostic leave, the
state and the first fetch after reset, and the two ends of a run. -/

namespace Sys2Proof.Machine

/-! ## A cycle that faults -/

theorem step_of_fault {s : State} {f : Fault} (h : s.fault = some f) : step s = .fault f := by
  rw [step, h]

theorem advanceCycle_of_fault {s : State} {f : Fault} (h : step s = .fault f) :
    advanceCycle s = ({ s with fault := some f }, .faulted f) := by
  rw [advanceCycle, h]

/-- Settles O12: a step that faults has no next state, so only the fault is recorded. -/
theorem faultingCycleWritesNothing : Obligations.FaultingCycleWritesNothing := by
  unfold Obligations.FaultingCycleWritesNothing
  exact fun s f h => advanceCycle_of_fault h

/-- Recording a fault that is already set changes nothing. -/
theorem advanceCycle_of_fault_set {s : State} {f : Fault} (h : s.fault = some f) :
    advanceCycle s = (s, .faulted f) := by
  rw [advanceCycle_of_fault (step_of_fault h), ← h]

/-- Settles O11: a cycle takes no step, and of the other operations only `reset` writes Fault. -/
theorem faultIsStickyUntilReset : Obligations.FaultIsStickyUntilReset := by
  unfold Obligations.FaultIsStickyUntilReset
  intro s f h
  refine ⟨step_of_fault h, advanceCycle_of_fault_set h, fun op notReset => ?_, fun _ => rfl⟩
  cases op with
  | reset seed => exact absurd rfl (notReset seed)
  | advanceCycle => rw [hostCall, advanceCycle_of_fault_set h, h]
  | loadProgram bytes =>
    obtain kept | ⟨-, copied⟩ := hostCall_loadProgram_cases bytes s
    · rw [kept, h]
    · rw [copied, State.setMem_fault, h]
  | tickTimers | setKeyState | framebufferView | isBeeping => exact h

/-! ## The diagnostic of a cycle and its cause -/

theorem Logs.unique {d e : Diag} {s t : State} (hd : Logs d s t) (he : Logs e s t) : d = e :=
  (lastDiag_of_logs hd).symm.trans (lastDiag_of_logs he)

/-- An instruction that completes logs None, but for a CALL on a full stack and a RET on an empty one, which
report it and do nothing else (R131, R132, R301). -/
theorem exec_logs_cases {i : Instr} {s t : State} (h : exec i s = .next t) :
    Logs .none s t ∨
    (t = s.advance.log .stackOverflow ∧ s.sp = 16 ∧ ∃ nnn, i = .call nnn) ∨
    (t = s.advance.log .stackUnderflow ∧ s.sp = 0 ∧ i = .ret) := by
  cases exec_effect h with
  | callFull nnn full => exact .inr (.inl ⟨rfl, full, nnn, rfl⟩)
  | retEmpty empty => exact .inr (.inr ⟨rfl, empty, rfl⟩)
  | _ => exact .inl rfl

/-- Settles O14: each cause of a diagnostic leaves `s.advance.log d`. -/
theorem diagnosticOnlyAdvancesPc : Obligations.DiagnosticOnlyAdvancesPc := by
  unfold Obligations.DiagnosticOnlyAdvancesPc
  intro s t d hstep logged notNone
  obtain ⟨-, -, ⟨i, hdecode, hexec⟩ | ⟨w, hdecode, rfl⟩⟩ := step_next_cases hstep
  · obtain completed | ⟨rfl, full, nnn, rfl⟩ | ⟨rfl, empty, rfl⟩ := exec_logs_cases hexec
    · exact absurd (logged.unique completed) notNone
    · exact ⟨rfl, changesOnly_advance_log s _, .inr (.inl ⟨logged.unique rfl, full, nnn, hdecode⟩)⟩
    · exact ⟨rfl, changesOnly_advance_log s _, .inr (.inr ⟨logged.unique rfl, empty, hdecode⟩)⟩
  · exact ⟨rfl, changesOnly_advance_log s _, .inl ⟨w, logged.unique rfl, hdecode⟩⟩

/-! ## The fault of an instruction and its cause -/

/-- The checks an instruction may fail, with the fault it then raises (R303). `exec_cases` ties it to
`exec`. -/
inductive FaultCause (s : State) : Instr → Fault → Prop
  /-- DRW reads its rows (R211) -/
  | draw (x y : Reg) {n : Nat} {f : Fault} (failed : firstFault readFault s.i.toNat n = some f) :
      FaultCause s (.drw x y n) f
  /-- LD Vx,[I] reads a byte for each of V0 to Vx (R195) -/
  | load {x : Reg} {f : Fault} (failed : firstFault readFault s.i.toNat (x.val + 1) = some f) :
      FaultCause s (.ldLoad x) f
  /-- LD B writes three digits (R193) -/
  | digits (x : Reg) {f : Fault} (failed : firstFault writeFault s.i.toNat 3 = some f) :
      FaultCause s (.ldB x) f
  /-- LD [I] writes V0 to Vx (R194) -/
  | store {x : Reg} {f : Fault} (failed : firstFault writeFault s.i.toNat (x.val + 1) = some f) :
      FaultCause s (.ldStore x) f
  /-- SKP and SKNP test the key V[x] (R260, R261) -/
  | key {i : Instr} {x : Reg} (test : i = .skp x ∨ i = .sknp x) (unnamed : 16 ≤ (s.getV x).toNat) :
      FaultCause s i (.keyIndexOutOfRange (s.getV x))

/-- An instruction that checks its addresses and then falls through completes, or raises the fault of the
check. -/
theorem checked_cause_cases {c : Option Fault} {i : Instr} {s u : State}
    (cause : ∀ f, c = some f → FaultCause s i f) :
    (∃ t, checked c (completeNext u) = .next t) ∨
      ∃ f, checked c (completeNext u) = .fault f ∧ FaultCause s i f := by
  obtain ⟨f, failed, faults⟩ | ⟨-, passed⟩ := checked_cases c (completeNext u)
  · exact .inr ⟨f, faults, cause f failed⟩
  · exact .inl ⟨_, passed⟩

theorem execCall_completes (nnn : Nat) (s : State) : ∃ t, execCall nnn s = .next t := by
  obtain ⟨free, -⟩ | ⟨full, -⟩ := push_cases s s.pc
  · exact ⟨_, exec_call_of_free nnn free⟩
  · exact ⟨_, exec_call_of_full nnn full⟩

theorem execRet_completes (s : State) : ∃ t, execRet s = .next t := by
  obtain ⟨j, occupied, -⟩ | ⟨empty, -⟩ := pop_cases s
  · exact ⟨_, exec_ret_of_occupied occupied⟩
  · exact ⟨_, exec_ret_of_empty empty⟩

theorem execLdVxK_completes (x : Reg) (s : State) : ∃ t, execLdVxK x s = .next t := by
  by_cases pressed : ∃ k, s.key.get k = true
  · exact ⟨_, exec_ldVxK_of_pressed x pressed⟩
  · exact ⟨_, exec_ldVxK_of_idle x (by simpa using pressed)⟩

theorem skipOnKey_cause_cases {x : Reg} {i : Instr} (test : i = .skp x ∨ i = .sknp x) (pressed : Bool)
    (s : State) :
    (∃ t, skipOnKey x pressed s = .next t) ∨
      ∃ f, skipOnKey x pressed s = .fault f ∧ FaultCause s i f := by
  obtain ⟨k, -, skips⟩ | ⟨unnamed, faults⟩ := skipOnKey_cases x pressed s
  · exact .inl ⟨_, skips⟩
  · exact .inr ⟨_, faults, .key test unnamed⟩

/-- Every instruction completes, or it fails one of its checks and raises that fault. -/
theorem exec_cases (i : Instr) (s : State) :
    (∃ t, exec i s = .next t) ∨ ∃ f, exec i s = .fault f ∧ FaultCause s i f := by
  cases i with
  | drw x y n => exact checked_cause_cases fun _ failed => .draw x y failed
  | ldLoad x => exact checked_cause_cases fun _ failed => .load failed
  | ldB x => exact checked_cause_cases fun _ failed => .digits x failed
  | ldStore x =>
    exact checked_cause_cases fun _ failed => .store (by rwa [regBytes_length] at failed)
  | skp x => exact skipOnKey_cause_cases (.inl rfl) true s
  | sknp x => exact skipOnKey_cause_cases (.inr rfl) false s
  | call nnn => exact .inl (execCall_completes nnn s)
  | ret => exact .inl (execRet_completes s)
  | ldVxK x => exact .inl (execLdVxK_completes x s)
  | _ => exact .inl ⟨_, rfl⟩

/-- Settles O16: a step raises the set fault or that of the fetch, runs an instruction, or reports an
unsupported word. -/
theorem noStepIsRefused : Obligations.NoStepIsRefused := by
  unfold Obligations.NoStepIsRefused
  intro s r refused
  cases hfault : s.fault with
  | some f => cases (step_of_fault hfault).symm.trans refused
  | none =>
    by_cases hpc : s.pc.toNat ≤ 0xFFE
    · cases hdecode : decode (fetchWord s) with
      | instr i =>
        have hexec : exec i s = .refused r := (step_of_instr hfault hpc hdecode).symm.trans refused
        obtain ⟨t, completes⟩ | ⟨f, faults, -⟩ := exec_cases i s
        · cases completes.symm.trans hexec
        · cases faults.symm.trans hexec
      | unsupported w => cases (step_of_unsupported hfault hpc hdecode).symm.trans refused
    · cases (fetchPastMemoryFaults s hfault (Nat.lt_of_not_le hpc)).symm.trans refused

/-- A run of reads fails only at an address that does not exist (R62). -/
theorem fault_of_firstFault_read {a n : Nat} {f : Fault} (h : firstFault readFault a n = some f) :
    ∃ b, f = .undefinedAccess b ∧ 4096 ≤ b ∧ a ≤ b ∧ b < a + n := by
  obtain ⟨j, hj, failed, -⟩ := firstFault_eq_some.1 h
  have past : 4096 ≤ a + j := by
    by_contra inMemory
    cases (readFault_eq_none.2 (Nat.lt_of_not_le inMemory)).symm.trans failed
  cases (readFault_past_memory past).symm.trans failed
  exact ⟨a + j, rfl, past, by omega, by omega⟩

/-- A run of writes fails at an address that does not exist, or at its first address when that is in the font
(R62, R63). -/
theorem fault_of_firstFault_write {a n : Nat} {f : Fault} (h : firstFault writeFault a n = some f) :
    (∃ b, f = .undefinedAccess b ∧ 4096 ≤ b ∧ a ≤ b ∧ b < a + n) ∨
    (f = .fontOverwrite a ∧ a < 0x50) := by
  obtain font | low := Nat.lt_or_ge a 0x50
  · obtain ⟨j, hj, -⟩ := firstFault_eq_some.1 h
    cases (firstFault_write_in_font (Nat.zero_lt_of_lt hj) font).symm.trans h
    exact .inr ⟨rfl, font⟩
  · exact .inl (fault_of_firstFault_read ((firstFault_write_eq_read low n).symm.trans h))

/-- Settles O15, by the check that failed. -/
theorem faultsComeOnlyFromTheirInstructions : Obligations.FaultsComeOnlyFromTheirInstructions := by
  unfold Obligations.FaultsComeOnlyFromTheirInstructions
  intro i s f h
  obtain ⟨t, completes⟩ | ⟨g, faults, cause⟩ := exec_cases i s
  · cases completes.symm.trans h
  cases faults.symm.trans h
  cases cause with
  | draw x y failed =>
    obtain ⟨a, rfl, past, low, high⟩ := fault_of_firstFault_read failed
    exact .inl ⟨a, rfl, past, low, .inl ⟨x, y, _, rfl, high⟩⟩
  | load failed =>
    obtain ⟨a, rfl, past, low, high⟩ := fault_of_firstFault_read failed
    exact .inl ⟨a, rfl, past, low, .inr (.inr (.inr ⟨_, rfl, Nat.le_of_lt_succ high⟩))⟩
  | digits x failed =>
    obtain ⟨a, rfl, past, low, high⟩ | ⟨rfl, font⟩ := fault_of_firstFault_write failed
    · exact .inl ⟨a, rfl, past, low, .inr (.inl ⟨x, rfl, high⟩)⟩
    · exact .inr (.inl ⟨x, rfl, font, .inl rfl⟩)
  | store failed =>
    obtain ⟨a, rfl, past, low, high⟩ | ⟨rfl, font⟩ := fault_of_firstFault_write failed
    · exact .inl ⟨a, rfl, past, low, .inr (.inr (.inl ⟨_, rfl, Nat.le_of_lt_succ high⟩))⟩
    · exact .inr (.inl ⟨_, rfl, font, .inr rfl⟩)
  | key test unnamed => exact .inr (.inr ⟨_, rfl, unnamed, test⟩)

/-! ## Reset -/

/-- Settles O53: a reset reads only FONT and the generator of the state it finds, and keeps FONT; a supplied
seed alone determines the next byte. -/
theorem resetIsIdempotentUpToTheSeed : Obligations.ResetIsIdempotentUpToTheSeed := by
  unfold Obligations.ResetIsIdempotentUpToTheSeed
  exact fun a b s => ⟨rfl, fun seed u => rfl⟩

/-- Settles O52: the image begins at 0x200, where reset sets pc. -/
theorem firstFetchAfterResetIsAtProgramBase : Obligations.FirstFetchAfterResetIsAtProgramBase := by
  unfold Obligations.FirstFetchAfterResetIsAtProgramBase
  intro seed s hi lo rest short
  have loaded : hostRun [.reset seed, .loadProgram (hi :: lo :: rest)] s =
      (hostReset seed s).setMem ((hostReset seed s).mem.writeBytes 0x200 (hi :: lo :: rest)) :=
    congrArg Prod.fst (hostCall_loadProgram_of_le (by simp only [List.length_cons]; omega) _)
  rw [loaded]
  refine ⟨rfl, congrArg₂ wordOfBytes ?first ?second⟩
  case first => exact Memory.read_writeBytes_inside _ _ 0x200 0 (by simp)
  case second => exact Memory.read_writeBytes_inside _ _ 0x200 1 (by simp)

/-! ## The ends of a run -/

theorem run_succ_of_next {M : Host.Core} {s t : M.State} (h : M.step s = .next t) (n : Nat) :
    M.run (n + 1) s = M.run n t := by
  rw [Host.Core.run, h]

/-- A jump to its own address writes the pc it has (R130). -/
theorem exec_jp_self (s : State) : exec (.jp s.pc.toNat) s = .next (s.log .none) := by
  have samePc : addressOperand s.pc.toNat = s.pc := by
    rw [addressOperand, BitVec.ofNat_toNat, BitVec.setWidth_eq]
  rw [exec, execJp, samePc, complete_eq]
  rfl

/-- A jump to its own address and a wait with no key pressed only log their diagnostic (R130, R262). -/
theorem exec_of_end {s : State} {i : Instr} (idle : s.anyKey = false)
    (h : i = .jp s.pc.toNat ∨ ∃ x, i = .ldVxK x) : exec i s = .next (s.log .none) := by
  obtain rfl | ⟨x, rfl⟩ := h
  · exact exec_jp_self s
  · rw [exec, execLdVxK, idle]
    rfl

/-- Logging changes nothing that the fetch and these instructions read, so each following cycle is the same
one. -/
theorem run_of_end {s : State} {i : Instr} (hfault : s.fault = none) (hpc : s.pc.toNat ≤ 0xFFE)
    (idle : s.anyKey = false) (hdecode : decode (fetchWord s) = .instr i)
    (h : i = .jp s.pc.toNat ∨ ∃ x, i = .ldVxK x) (n : Nat) :
    ∃ t : State, Sys2Proof.core.run n s = .next t ∧ t.pc = s.pc := by
  induction n generalizing s with
  | zero => exact ⟨s, rfl, rfl⟩
  | succ n ih =>
    have hstep : step s = .next (s.log .none) :=
      (step_of_instr hfault hpc hdecode).trans (exec_of_end idle h)
    have hrun : Sys2Proof.core.run (n + 1) s = Sys2Proof.core.run n (s.log .none) :=
      run_succ_of_next hstep n
    rw [hrun]
    exact ih (s := s.log .none) hfault hpc idle hdecode h

/-- Settles O59, by induction on the number of cycles. -/
theorem selfJumpAndIdleWaitAreEnds : Obligations.SelfJumpAndIdleWaitAreEnds := by
  unfold Obligations.SelfJumpAndIdleWaitAreEnds
  intro s i hfault hpc ⟨idle, timers⟩ hdecode h
  exact ⟨⟨idle, timers⟩, run_of_end hfault hpc idle hdecode h⟩

end Sys2Proof.Machine
